-- ==== Sys2Proof/Word.lean ====
section
/-! DEFINITION. Word.lean: the value types of the machine (spec/00_scope.md R6: every value is unsigned; spec/30_encoding.md R91 for the field widths). -/

namespace Sys2Proof

/-- A 4-bit unit: a register index, a key value, the row count n (R91). -/
abbrev Nibble := BitVec 4

/-- An 8-bit value: a V register, a timer, a memory byte, the literal kk (R4, R91). -/
abbrev Byte := BitVec 8

/-- A 12-bit value: the literal nnn, the index register I (R23, R91). -/
abbrev Addr := BitVec 12

/-- A 16-bit value: an instruction word, the stored program counter, a stack entry (R6, R22, R24). -/
abbrev Word := BitVec 16

end Sys2Proof
end

