-- ==== Sys2Proof/Config.lean ====
section
/-! DEFINITION. Config.lean: the fixed constants of spec/00_scope.md R4, and the parameters R5 leaves OPEN, each an opaque constant with no value that a proof could see. -/

namespace Sys2Proof

/-- `MEM_SIZE`: 4096 bytes, addresses 0x000 to 0xFFF (R4). -/
abbrev Config.memSize : Nat := 4096

/-- `PROG_BASE`: the first address of a program image and the reset value of PC (R4). -/
abbrev Config.progBase : Nat := 0x200

/-- `STACK_CAP`: capacity of the return-address stack (R4). -/
abbrev Config.stackCap : Nat := 16

/-- `DISP_W`: the display's width in pixels (R4). -/
abbrev Config.dispW : Nat := 64

/-- `DISP_H`: the display's height in pixels (R4). -/
abbrev Config.dispH : Nat := 32

/-- `GLYPH_STRIDE`: bytes from one font glyph to the next (R5; the spec supplies 5 from general knowledge, log entry 8). -/
abbrev Config.glyphStride : Nat := 5

/-- What the Cycle Driver does after a surfaced `UnknownInstruction` (spec/60_exceptions.md R268). -/
inductive UnknownPolicy where
  | surfaceAndContinue   -- execution goes on after the word
  | halt                 -- the run ends: RUN <- Halted, FAULT <- (UnknownInstruction, word)
  deriving DecidableEq, Repr, Inhabited

/-- `FX1E_VF_ON_OVERFLOW` (R5: OPEN). Log entry 6. -/
opaque Config.fx1eVfOnOverflow : Bool

/-- `UNKNOWN_POLICY` (R5: OPEN). Log entry 7. -/
opaque Config.unknownPolicy : UnknownPolicy

/-- `FONT_BASE` (R5: OPEN), constrained to 0x000..0x1B0 as R203 says. Log entry 8. -/
opaque Config.fontBase : Fin 0x1B1

/-- The free value of `rand_byte` for the n-th execution of Cxkk (R33, R185: a draw under no law). Log entry 5. -/
opaque Config.randByte : Nat → Byte

end Sys2Proof
end

