-- ==== Sys2Proof/Syntax.lean ====
section
/-! DEFINITION. Syntax.lean: the decoded instruction: the 34 operations of spec/30_encoding.md R95 in the table's order, and `Unknown(word)` (R94, R100). The fields are those of R91. -/

namespace Sys2Proof

/-- The 35 variants of the decoder (R94); each constructor's comment gives its pattern and the rule of its meaning. -/
inductive Instr where
  | cls                                -- 00E0  R220
  | ret                                -- 00EE  R151
  | jp       (nnn : Addr)              -- 1nnn  R152
  | call     (nnn : Addr)              -- 2nnn  R153
  | seImm    (x : Nibble) (kk : Byte)  -- 3xkk  R155
  | sneImm   (x : Nibble) (kk : Byte)  -- 4xkk  R156
  | seReg    (x y : Nibble)            -- 5xy0  R157
  | ldImm    (x : Nibble) (kk : Byte)  -- 6xkk  R173
  | addImm   (x : Nibble) (kk : Byte)  -- 7xkk  R174
  | ldReg    (x y : Nibble)            -- 8xy0  R175
  | orReg    (x y : Nibble)            -- 8xy1  R176
  | andReg   (x y : Nibble)            -- 8xy2  R182
  | xorReg   (x y : Nibble)            -- 8xy3  R183
  | addReg   (x y : Nibble)            -- 8xy4  R177
  | subReg   (x y : Nibble)            -- 8xy5  R178
  | shr      (x y : Nibble)            -- 8xy6  R179 (y decoded, not used)
  | subnReg  (x y : Nibble)            -- 8xy7  R180
  | shl      (x y : Nibble)            -- 8xyE  R181 (y decoded, not used)
  | sneReg   (x y : Nibble)            -- 9xy0  R158
  | ldI      (nnn : Addr)              -- Annn  R201
  | jpV0     (nnn : Addr)              -- Bnnn  R154
  | rnd      (x : Nibble) (kk : Byte)  -- Cxkk  R185
  | drw      (x y n : Nibble)          -- Dxyn  R221
  | skp      (x : Nibble)              -- Ex9E  R241
  | sknp     (x : Nibble)              -- ExA1  R242
  | ldFromDt (x : Nibble)              -- Fx07  R244
  | ldKey    (x : Nibble)              -- Fx0A  R243
  | ldDt     (x : Nibble)              -- Fx15  R245
  | ldSt     (x : Nibble)              -- Fx18  R246
  | addI     (x : Nibble)              -- Fx1E  R202
  | ldFont   (x : Nibble)              -- Fx29  R203
  | bcd      (x : Nibble)              -- Fx33  R204
  | store    (x : Nibble)              -- Fx55  R205
  | load     (x : Nibble)              -- Fx65  R206
  | unknown  (word : Word)             -- every other word  R267
  deriving DecidableEq, Repr

end Sys2Proof
end

