-- ==== Sys2Proof/WellFormed.lean ====
section
/-! DEFINITION. WellFormed.lean: the opcode map of spec/30_encoding.md R95 as rows of mask and match, and the one check an instruction needs. The field types already bound every operand; only `Unknown(word)` carries a word that must be none of the map's (R96). -/

namespace Sys2Proof

/-- One row of the opcode map: a word w selects it when `w AND mask = pattern` (R95). -/
structure Row where
  mask    : Word
  pattern : Word
  deriving DecidableEq, Repr

/-- Rows 1 to 19 of R95: families 0x0 to 0x9. -/
def rowsLow : List Row :=
  [⟨0xFFFF, 0x00E0⟩, ⟨0xFFFF, 0x00EE⟩, ⟨0xF000, 0x1000⟩, ⟨0xF000, 0x2000⟩,
   ⟨0xF000, 0x3000⟩, ⟨0xF000, 0x4000⟩, ⟨0xF00F, 0x5000⟩, ⟨0xF000, 0x6000⟩,
   ⟨0xF000, 0x7000⟩, ⟨0xF00F, 0x8000⟩, ⟨0xF00F, 0x8001⟩, ⟨0xF00F, 0x8002⟩,
   ⟨0xF00F, 0x8003⟩, ⟨0xF00F, 0x8004⟩, ⟨0xF00F, 0x8005⟩, ⟨0xF00F, 0x8006⟩,
   ⟨0xF00F, 0x8007⟩, ⟨0xF00F, 0x800E⟩, ⟨0xF00F, 0x9000⟩]

/-- Rows 20 to 34 of R95: families 0xA to 0xF. -/
def rowsHigh : List Row :=
  [⟨0xF000, 0xA000⟩, ⟨0xF000, 0xB000⟩, ⟨0xF000, 0xC000⟩, ⟨0xF000, 0xD000⟩,
   ⟨0xF0FF, 0xE09E⟩, ⟨0xF0FF, 0xE0A1⟩, ⟨0xF0FF, 0xF007⟩, ⟨0xF0FF, 0xF00A⟩,
   ⟨0xF0FF, 0xF015⟩, ⟨0xF0FF, 0xF018⟩, ⟨0xF0FF, 0xF01E⟩, ⟨0xF0FF, 0xF029⟩,
   ⟨0xF0FF, 0xF033⟩, ⟨0xF0FF, 0xF055⟩, ⟨0xF0FF, 0xF065⟩]

/-- The 34 rows of the opcode map, in the order of R95. -/
def opcodeRows : List Row := rowsLow ++ rowsHigh

/-- A word selects a row. -/
def Row.selects (r : Row) (w : Word) : Bool := w &&& r.mask == r.pattern

/-- A word is one of the 43954 defined words: it selects some row (R96). -/
def definedWord (w : Word) : Bool := opcodeRows.any (·.selects w)

/-- The row of R95 an instruction stands in; `Unknown` stands in none, given here as the table's fallback row (mask 0, match 0). -/
def Instr.row : Instr → Row
  | .cls        => ⟨0xFFFF, 0x00E0⟩
  | .ret        => ⟨0xFFFF, 0x00EE⟩
  | .jp _       => ⟨0xF000, 0x1000⟩
  | .call _     => ⟨0xF000, 0x2000⟩
  | .seImm _ _  => ⟨0xF000, 0x3000⟩
  | .sneImm _ _ => ⟨0xF000, 0x4000⟩
  | .seReg _ _  => ⟨0xF00F, 0x5000⟩
  | .ldImm _ _  => ⟨0xF000, 0x6000⟩
  | .addImm _ _ => ⟨0xF000, 0x7000⟩
  | .ldReg _ _  => ⟨0xF00F, 0x8000⟩
  | .orReg _ _  => ⟨0xF00F, 0x8001⟩
  | .andReg _ _ => ⟨0xF00F, 0x8002⟩
  | .xorReg _ _ => ⟨0xF00F, 0x8003⟩
  | .addReg _ _ => ⟨0xF00F, 0x8004⟩
  | .subReg _ _ => ⟨0xF00F, 0x8005⟩
  | .shr _ _    => ⟨0xF00F, 0x8006⟩
  | .subnReg _ _ => ⟨0xF00F, 0x8007⟩
  | .shl _ _    => ⟨0xF00F, 0x800E⟩
  | .sneReg _ _ => ⟨0xF00F, 0x9000⟩
  | .ldI _      => ⟨0xF000, 0xA000⟩
  | .jpV0 _     => ⟨0xF000, 0xB000⟩
  | .rnd _ _    => ⟨0xF000, 0xC000⟩
  | .drw _ _ _  => ⟨0xF000, 0xD000⟩
  | .skp _      => ⟨0xF0FF, 0xE09E⟩
  | .sknp _     => ⟨0xF0FF, 0xE0A1⟩
  | .ldFromDt _ => ⟨0xF0FF, 0xF007⟩
  | .ldKey _    => ⟨0xF0FF, 0xF00A⟩
  | .ldDt _     => ⟨0xF0FF, 0xF015⟩
  | .ldSt _     => ⟨0xF0FF, 0xF018⟩
  | .addI _     => ⟨0xF0FF, 0xF01E⟩
  | .ldFont _   => ⟨0xF0FF, 0xF029⟩
  | .bcd _      => ⟨0xF0FF, 0xF033⟩
  | .store _    => ⟨0xF0FF, 0xF055⟩
  | .load _     => ⟨0xF0FF, 0xF065⟩
  | .unknown _  => ⟨0x0000, 0x0000⟩

/-- An instruction is well-formed: `Unknown(word)` carries a word that selects no row (R96); every value of the other
variants' fields is an operand the encoding admits (R91, R93). -/
def Instr.wellFormed : Instr → Bool
  | .unknown w => !definedWord w
  | _          => true

end Sys2Proof
end

