-- ==== Sys2Proof/Decode.lean ====
section
/-! DEFINITION. Decode.lean: the decoder of spec/30_encoding.md R94, reading from bytes (R90, R64), and the encoder (R103). -/

namespace Sys2Proof

/-- The family selector: bits 15:12 (R91). -/
def fieldOp (w : Word) : Nibble := w.extractLsb' 12 4

/-- Field x: bits 11:8 (R91). -/
def fieldX (w : Word) : Nibble := w.extractLsb' 8 4

/-- Field y: bits 7:4 (R91). -/
def fieldY (w : Word) : Nibble := w.extractLsb' 4 4

/-- Field n: bits 3:0 (R91). -/
def fieldN (w : Word) : Nibble := w.extractLsb' 0 4

/-- Field kk: bits 7:0 (R91). -/
def fieldKK (w : Word) : Byte := w.extractLsb' 0 8

/-- Field nnn: bits 11:0 (R91). -/
def fieldNNN (w : Word) : Addr := w.extractLsb' 0 12

/-- Family 0x0: two defined words, each matched on all 16 bits (R94, R98). -/
def decodeFamily0 (w : Word) : Instr :=
  if w = 0x00E0#16 then .cls
  else if w = 0x00EE#16 then .ret
  else .unknown w

/-- Family 0x8: the low nibble is the sub-opcode (R94). -/
def decodeFamily8 (w : Word) : Instr :=
  match fieldN w with
  | 0x0#4 => .ldReg (fieldX w) (fieldY w)
  | 0x1#4 => .orReg (fieldX w) (fieldY w)
  | 0x2#4 => .andReg (fieldX w) (fieldY w)
  | 0x3#4 => .xorReg (fieldX w) (fieldY w)
  | 0x4#4 => .addReg (fieldX w) (fieldY w)
  | 0x5#4 => .subReg (fieldX w) (fieldY w)
  | 0x6#4 => .shr (fieldX w) (fieldY w)
  | 0x7#4 => .subnReg (fieldX w) (fieldY w)
  | 0xE#4 => .shl (fieldX w) (fieldY w)
  | _     => .unknown w

/-- Family 0xE: the low byte is the sub-opcode (R94). -/
def decodeFamilyE (w : Word) : Instr :=
  match fieldKK w with
  | 0x9E#8 => .skp (fieldX w)
  | 0xA1#8 => .sknp (fieldX w)
  | _      => .unknown w

/-- Family 0xF: the low byte is the sub-opcode (R94). -/
def decodeFamilyF (w : Word) : Instr :=
  match fieldKK w with
  | 0x07#8 => .ldFromDt (fieldX w)
  | 0x0A#8 => .ldKey (fieldX w)
  | 0x15#8 => .ldDt (fieldX w)
  | 0x18#8 => .ldSt (fieldX w)
  | 0x1E#8 => .addI (fieldX w)
  | 0x29#8 => .ldFont (fieldX w)
  | 0x33#8 => .bcd (fieldX w)
  | 0x55#8 => .store (fieldX w)
  | 0x65#8 => .load (fieldX w)
  | _      => .unknown w

/-- `decode(word)`: a pure, total function of the word alone (R94, R99). Families 5 and 9 need a low nibble of 0 (R97). -/
def decode (w : Word) : Instr :=
  match fieldOp w with
  | 0x0#4 => decodeFamily0 w
  | 0x1#4 => .jp (fieldNNN w)
  | 0x2#4 => .call (fieldNNN w)
  | 0x3#4 => .seImm (fieldX w) (fieldKK w)
  | 0x4#4 => .sneImm (fieldX w) (fieldKK w)
  | 0x5#4 => if fieldN w = 0 then .seReg (fieldX w) (fieldY w) else .unknown w
  | 0x6#4 => .ldImm (fieldX w) (fieldKK w)
  | 0x7#4 => .addImm (fieldX w) (fieldKK w)
  | 0x8#4 => decodeFamily8 w
  | 0x9#4 => if fieldN w = 0 then .sneReg (fieldX w) (fieldY w) else .unknown w
  | 0xA#4 => .ldI (fieldNNN w)
  | 0xB#4 => .jpV0 (fieldNNN w)
  | 0xC#4 => .rnd (fieldX w) (fieldKK w)
  | 0xD#4 => .drw (fieldX w) (fieldY w) (fieldN w)
  | 0xE#4 => decodeFamilyE w
  | _     => decodeFamilyF w

/-- Why bytes are no instruction; an encoding that matches no operation is no error but the variant `Unknown` (R94). -/
inductive DecodeError where
  | truncated   -- fewer than the two bytes every instruction has (R90)
  deriving DecidableEq, Repr

/-- The word of two bytes, the byte at the lower address first: it is the high byte (R64). -/
def wordOfBytes (hi lo : Byte) : Word := hi ++ lo

/-- The two bytes of a word in memory order (R64). -/
def bytesOfWord (w : Word) : List Byte := [w.extractLsb' 8 8, w.extractLsb' 0 8]

/-- Decode the instruction at the front of a list of bytes; the rest of the list is given back. Total on any bytes. -/
def decodeBytes : List Byte → Except DecodeError (Instr × List Byte)
  | hi :: lo :: rest => .ok (decode (wordOfBytes hi lo), rest)
  | _                => .error .truncated

/-- Format NNN (R92): the fixed bits, OR nnn. -/
def wordNNN (base : Word) (nnn : Addr) : Word := base ||| nnn.setWidth 16

/-- Format XKK (R92): the fixed bits, OR (x << 8), OR kk. -/
def wordXKK (base : Word) (x : Nibble) (kk : Byte) : Word := base ||| (x.setWidth 16 <<< 8) ||| kk.setWidth 16

/-- Format XY (R92): the fixed bits, OR (x << 8), OR (y << 4). -/
def wordXY (base : Word) (x y : Nibble) : Word := base ||| (x.setWidth 16 <<< 8) ||| (y.setWidth 16 <<< 4)

/-- Format XYN (R92): the fixed bits, OR (x << 8), OR (y << 4), OR n. -/
def wordXYN (base : Word) (x y n : Nibble) : Word := wordXY base x y ||| n.setWidth 16

/-- Format X (R92): the fixed bits, OR (x << 8). -/
def wordX (base : Word) (x : Nibble) : Word := base ||| (x.setWidth 16 <<< 8)

/-- The word of an instruction: the fixed nibbles of its pattern and its fields in their bit positions, as the Encoding line
of its rule gives it (R103, R95). -/
def encode : Instr → Word
  | .cls => 0x00E0#16
  | .ret => 0x00EE#16
  | .jp nnn => wordNNN 0x1000#16 nnn
  | .call nnn => wordNNN 0x2000#16 nnn
  | .seImm x kk => wordXKK 0x3000#16 x kk
  | .sneImm x kk => wordXKK 0x4000#16 x kk
  | .seReg x y => wordXY 0x5000#16 x y
  | .ldImm x kk => wordXKK 0x6000#16 x kk
  | .addImm x kk => wordXKK 0x7000#16 x kk
  | .ldReg x y => wordXY 0x8000#16 x y
  | .orReg x y => wordXY 0x8001#16 x y
  | .andReg x y => wordXY 0x8002#16 x y
  | .xorReg x y => wordXY 0x8003#16 x y
  | .addReg x y => wordXY 0x8004#16 x y
  | .subReg x y => wordXY 0x8005#16 x y
  | .shr x y => wordXY 0x8006#16 x y
  | .subnReg x y => wordXY 0x8007#16 x y
  | .shl x y => wordXY 0x800E#16 x y
  | .sneReg x y => wordXY 0x9000#16 x y
  | .ldI nnn => wordNNN 0xA000#16 nnn
  | .jpV0 nnn => wordNNN 0xB000#16 nnn
  | .rnd x kk => wordXKK 0xC000#16 x kk
  | .drw x y n => wordXYN 0xD000#16 x y n
  | .skp x => wordX 0xE09E#16 x
  | .sknp x => wordX 0xE0A1#16 x
  | .ldFromDt x => wordX 0xF007#16 x
  | .ldKey x => wordX 0xF00A#16 x
  | .ldDt x => wordX 0xF015#16 x
  | .ldSt x => wordX 0xF018#16 x
  | .addI x => wordX 0xF01E#16 x
  | .ldFont x => wordX 0xF029#16 x
  | .bcd x => wordX 0xF033#16 x
  | .store x => wordX 0xF055#16 x
  | .load x => wordX 0xF065#16 x
  | .unknown w => w

/-- The word whose bits are w, numbered as spec/opcode_table.json numbers them (its words are 16 bits, bit 0 the least
significant), every bit at or above nbits being 0. -/
def tableWord (nbits w : Nat) : Word := BitVec.ofNat 16 (w % 2 ^ nbits)

/-- The instruction the decoder reads from such a word laid out in memory order; none where it refuses. -/
def decodeTableWord (nbits w : Nat) : Option Instr :=
  match decodeBytes (bytesOfWord (tableWord nbits w)) with
  | .ok (i, _) => some i
  | .error _   => none

end Sys2Proof
end

