-- ==== Sys2Proof/Machine/State.lean ====
section
/-! DEFINITION. Machine/State.lean: the state of the core as plain data (spec/10_state.md R20 to R39), the conditions a cycle can raise, and the state after reset (R37). -/

namespace Sys2Proof.Machine

/-- The run state `RUN` (R29). -/
inductive RunState where
  | running         -- the next cycle fetches and executes one instruction
  | waitingForKey   -- Fx0A has executed and no key press has been consumed yet
  | halted          -- a fatal condition was raised
  deriving DecidableEq, Repr

/-- The conditions that `FAULT` records, each with its info value (R31; spec/60_exceptions.md R261). An instruction that
raises one does NOT answer `.fault`: the cycle answers a next state with `RUN = Halted` and the record in `FAULT` (R262).
`step` answers `.fault` with the recorded condition only on a machine that is already `Halted`, where `cycle()` changes
nothing and returns it (spec/40_cycle.md R127). Safe: the machine stops where the spec says it stops. -/
inductive Fault where
  /-- Raised by a fetch above 0xFFE (R122) and by Dxyn, Fx33, Fx55, Fx65 whose range leaves memory (R69); info: the lowest
  address out of range. Safe: the spec halts here too. -/
  | outOfBoundsAccess (addr : Word)
  /-- Raised by 2nnn with 16 return addresses held (R153); info: the address of that 2nnn. Safe: the spec halts here too. -/
  | stackOverflow (addr : Word)
  /-- Raised by 00EE with no return address held (R151); info: the address of that 00EE. Safe: the spec halts here too. -/
  | stackUnderflow (addr : Word)
  /-- Recorded only where `UNKNOWN_POLICY` is `halt` (R268), by a word that decodes to `Unknown`; info: the word. Safe. -/
  | unknownInstruction (word : Word)
  deriving DecidableEq, Repr

/-- Why an instruction has no meaning. -/
inductive Refusal where
  /-- An arm of `exec` without a meaning; no arm is one, every instruction of the table is modelled. Safe. -/
  | notModelled (mnemonic : String)
  deriving DecidableEq, Repr

/-- Memory as (address, byte) pairs in canonical form: addresses strictly rising, no entry equal to what an unlisted
address reads as (`Memory.unlisted`), every address below 4096 (R27; spec/20_memory.md R60). -/
abbrev Memory := List Host.Cell

/-- The Display Surface (R28): entry py is row py from the top, bit px of it is the pixel at column px from the left. -/
abbrev Display := Vector (BitVec 64) 32

/-- Everything the spec gives the machine (R20 to R31), and the inputs an instruction samples (R33). -/
structure State where
  /-- V0..VF (R20, R21). -/
  v : Vector Byte 16
  /-- The program counter, 16 bits stored (R22). -/
  pc : Word
  /-- The index register (R23). -/
  i : Addr
  /-- The return-address stack's sixteen entries (R24). -/
  stack : Vector Word 16
  /-- The stack pointer: the number of return addresses held, 0..16 (R24). -/
  sp : Fin 17
  /-- The delay timer (R25). -/
  dt : Byte
  /-- The sound timer (R26). -/
  st : Byte
  /-- The 4096-byte memory (R27). -/
  mem : Memory
  /-- The 64 × 32 one-bit pixels (R28). -/
  disp : Display
  /-- The run state (R29). -/
  run : RunState
  /-- `WAIT_X`: field x of the Fx0A being waited on (R30). -/
  waitX : Nibble
  /-- `FAULT` (R31). -/
  fault : Option Fault
  /-- The input `keys_down`, bit k for key k (R33): the level the host holds now. Log entry 4. -/
  keysDown : BitVec 16
  /-- The input `rand_byte` (R33): the bytes the host has supplied for the coming draws, oldest first. Log entry 5. -/
  randIn : List Byte
  /-- The model's own count of executed Cxkk; it numbers the free values of `rand_byte`. Log entry 5. -/
  draws : Nat
  deriving DecidableEq, Repr

/-- The machine right after reset (R37, R38), with nothing loaded. STACK and WAIT_X are unspecified there (log entries 1, 2),
memory is not written by reset (log entry 3), the inputs are the host's (log entries 4, 5). -/
def State.reset : State where
  v := Vector.replicate 16 0
  pc := 0x200
  i := 0
  stack := Vector.replicate 16 0
  sp := 0
  dt := 0
  st := 0
  mem := []
  disp := Vector.replicate 32 0
  run := .running
  waitX := 0
  fault := none
  keysDown := 0
  randIn := []
  draws := 0

end Sys2Proof.Machine
end

