-- ==== Sys2Proof/Machine/Ops.lean ====
section
/-! DEFINITION. Machine/Ops.lean: the named operations over memory, registers, stack and run state that every meaning uses: the primitives of spec/00_scope.md R7, taking a condition (spec/60_exceptions.md R262), and the fetch of spec/40_cycle.md R122. -/

namespace Sys2Proof.Machine

/-! ### Memory (spec/20_memory.md) -/

/-- What an address that no entry lists reads as. The spec leaves the contents open (R37, R70); log entry 3. -/
def Memory.unlisted : Byte := 0

/-- The byte at an address, `MEM[a]`. -/
def Memory.read : Memory → Nat → Byte
  | [], _ => Memory.unlisted
  | (b, w) :: m, a => if a = b then w else Memory.read m a

/-- `MEM[a] <- v`, keeping the canonical form. -/
def Memory.write : Memory → Nat → Byte → Memory
  | [], a, v => if v = Memory.unlisted then [] else [(a, v)]
  | (b, w) :: m, a, v =>
    if a < b then (if v = Memory.unlisted then (b, w) :: m else (a, v) :: (b, w) :: m)
    else if a = b then (if v = Memory.unlisted then m else (a, v) :: m)
    else (b, w) :: Memory.write m a v

/-- The canonical form: addresses strictly rising and below 4096, no entry equal to what an unlisted address reads as. -/
def Memory.wf : Memory → Bool
  | [] => true
  | (a, v) :: m => decide (a < Config.memSize) && v != Memory.unlisted && m.all (fun c => decide (a < c.1)) && Memory.wf m

/-- The n bytes at base, base + 1, … in that order (R65). -/
def Memory.readBlock (m : Memory) (base : Nat) : Nat → List Byte
  | 0 => []
  | n + 1 => m.read base :: Memory.readBlock m (base + 1) n

/-- Store bytes at base, base + 1, … in that order (R65). -/
def Memory.writeBlock (m : Memory) (base : Nat) : List Byte → Memory
  | [] => m
  | b :: bs => Memory.writeBlock (m.write base b) (base + 1) bs

/-- `MemRead(addr, 1)`: bounds-checked, never masked (R62, R63). -/
def State.memRead (s : State) (addr : Nat) : Except Fault Byte :=
  if addr < Config.memSize then .ok (s.mem.read addr)
  else .error (.outOfBoundsAccess (BitVec.ofNat 16 addr))

/-! ### Registers (spec/10_state.md) -/

/-- `V[x]` (R20). -/
def State.readReg (s : State) (x : Nibble) : Byte := s.v[x.toNat]'x.isLt

/-- `V[x] <- b` (R20): no register is hardwired. -/
def State.writeReg (s : State) (x : Nibble) (b : Byte) : State :=
  { s with v := s.v.set x.toNat b x.isLt }

/-- The registers with `V[k], V[k+1], … <- bytes`, as far as there are registers. -/
def setRegs (v : Vector Byte 16) (k : Nat) : List Byte → Vector Byte 16
  | [] => v
  | b :: bs => if h : k < 16 then setRegs (v.set k b h) (k + 1) bs else v

/-- `V[0], V[1], … <- bytes`: the bytes a block load moves (spec/43_index_memory.md R206). -/
def State.writeRegs (s : State) (bytes : List Byte) : State := { s with v := setRegs s.v 0 bytes }

/-- `V[0], …, V[x]` in that order: the x + 1 bytes a block store moves (spec/43_index_memory.md R205). -/
def State.readRegs (s : State) (x : Nibble) : List Byte := s.v.toList.take (x.toNat + 1)

/-- `PC <- a` (R22). -/
def State.setPc (s : State) (a : Word) : State := { s with pc := a }

/-- `I <- a` (R23). -/
def State.setI (s : State) (a : Addr) : State := { s with i := a }

/-- The address the executing instruction was fetched from: PC is already advanced by 2 (spec/40_cycle.md R123). -/
def State.instrAddr (s : State) : Word := s.pc - 2

/-! ### The return-address stack (R24) -/

/-- Push a return address: `STACK[SP] <- a; SP <- SP + 1`; none at depth 16. -/
def State.push (s : State) (a : Word) : Option State :=
  if h : s.sp.val < 16 then
    some { s with stack := s.stack.set s.sp.val a h, sp := ⟨s.sp.val + 1, by omega⟩ }
  else none

/-- Pop a return address: `SP <- SP - 1`, then read `STACK[SP]`; none at depth 0. The entry is not erased. -/
def State.pop (s : State) : Option (Word × State) :=
  if h : 0 < s.sp.val then
    some (s.stack[s.sp.val - 1]'(by omega), { s with sp := ⟨s.sp.val - 1, by omega⟩ })
  else none

/-! ### Conditions (spec/60_exceptions.md) -/

/-- Taking a fatal condition (R262): `FAULT <- (kind, info); RUN <- Halted`, and nothing else: no state is saved, PC is not
redirected, no handler runs. There is no return from one (R265); `reset()` alone leaves `Halted` (R264). -/
def State.raise (s : State) (f : Fault) : State := { s with run := .halted, fault := some f }

/-- An instruction that accesses len bytes at I, I + 1, … checks the whole range first (spec/20_memory.md R69): it has its
effect t when the range lies in memory; otherwise it changes nothing and raises the condition with the lowest address out
of range, which is 0x1000 since I is at most 0xFFF. -/
def State.whenInRange (s : State) (len : Nat) (t : State) : State :=
  if s.i.toNat + len ≤ Config.memSize then t
  else s.raise (.outOfBoundsAccess (BitVec.ofNat 16 Config.memSize))

/-- What an `Unknown` word leaves behind under a policy (R267, R268): the operation itself changes no state. -/
def State.surfaceUnknown (s : State) (policy : UnknownPolicy) (word : Word) : State :=
  match policy with
  | .surfaceAndContinue => s
  | .halt => s.raise (.unknownInstruction word)

/-! ### The cycle up to execution (spec/40_cycle.md) -/

/-- `Fetch(PC)`: high byte first, both bytes bounds-checked, the first before the second, no alignment check (R122, R64, R66). -/
def State.fetch (s : State) : Except Fault Word :=
  match s.memRead s.pc.toNat with
  | .error f => .error f
  | .ok hi =>
    match s.memRead (s.pc.toNat + 1) with
    | .error f => .error f
    | .ok lo => .ok (wordOfBytes hi lo)

/-- What a cycle does before execution (R120, R269): the run-state tests, the fetch, the advance of PC by 2 (R123) and
decode. Either the cycle ends here with an outcome, or an instruction is to be executed in the state with PC advanced.
Waiting: nothing changes (R126). Halted: nothing changes and the recorded condition is returned (R127); a halted machine
always has one (R31), so the case without one is no state that a run reaches, and nothing changes there either. -/
def State.beginCycle (s : State) : Except (Host.Outcome State Fault Refusal) (Instr × State) :=
  match s.run with
  | .waitingForKey => .error (.next s)
  | .halted =>
    match s.fault with
    | some f => .error (.fault f)
    | none   => .error (.next s)
  | .running =>
    match s.fetch with
    | .error f => .error (.next (s.raise f))
    | .ok w    => .ok (decode w, s.setPc (s.pc + 2))

end Sys2Proof.Machine
end

