-- ==== Sys2Proof/Machine/Flags.lean ====
section
/-! DEFINITION. Machine/Flags.lean: the flag values of spec/42_alu.md R170 and the order of writing them (R172): the result first, then the flag to VF, last. -/

namespace Sys2Proof.Machine

/-- VF's index (spec/10_state.md R21). -/
abbrev regF : Nibble := 0xF

/-- A flag as the 8-bit value 0x00 or 0x01 (R21). -/
def flagByte (b : Bool) : Byte := if b then 1 else 0

/-- Carry: the unwrapped sum exceeds 255 (R170, R177). -/
def carryFlag (a b : Byte) : Bool := decide (255 < a.toNat + b.toNat)

/-- No borrow: minuend ≥ subtrahend (R170, R178, R180). -/
def noBorrowFlag (minuend subtrahend : Byte) : Bool := decide (subtrahend.toNat ≤ minuend.toNat)

/-- The bit 8xy6 shifts out: bit 0 before the shift (R179). -/
def lowBit (a : Byte) : Bool := a.getLsbD 0

/-- The bit 8xyE shifts out: bit 7 before the shift (R181). -/
def highBit (a : Byte) : Bool := a.getLsbD 7

/-- I + Vx passes 0xFFF (spec/43_index_memory.md R202). -/
def indexOverflow (sum : Nat) : Bool := decide (0xFFF < sum)

/-- `V[0xF] <- flag` (R21). -/
def State.setFlag (s : State) (b : Bool) : State := s.writeReg regF (flagByte b)

/-- The result to V[x], then the flag to VF, last (R172). -/
def State.writeResultFlag (s : State) (x : Nibble) (result : Byte) (flag : Bool) : State :=
  (s.writeReg x result).setFlag flag

end Sys2Proof.Machine
end

