-- ==== Sys2Proof/Machine/Operands.lean ====
section
/-! DEFINITION. Machine/Operands.lean: the operand forms of spec/30_encoding.md R93 beyond a plain register or literal: widened addresses, the block at I (spec/43_index_memory.md R200), the sampled inputs of spec/10_state.md R33, the glyph address of R203. -/

namespace Sys2Proof.Machine

/-- A literal nnn as a value of PC: zero-extended, absolute (R93, R159). -/
def absTarget (nnn : Addr) : Word := nnn.setWidth 16

/-- `nnn + zext(V0)`, not reduced modulo 4096 (spec/41_control_flow.md R154). -/
def indexedTarget (nnn : Addr) (v0 : Byte) : Word := nnn.setWidth 16 + v0.setWidth 16

/-- Skip the next instruction when the condition holds: `PC <- PC + 2` on the already advanced PC, never reduced modulo 4096
(spec/41_control_flow.md R150). -/
def State.skipIf (s : State) (c : Bool) : State := if c then s.setPc (s.pc + 2) else s

/-- The unwrapped sum `I + zext(V[x])`, 0 .. 0x10FE (spec/43_index_memory.md R202). -/
def indexSum (i : Addr) (a : Byte) : Nat := i.toNat + a.toNat

/-- `I <- s mod 4096` (R202). -/
def indexWrap (sum : Nat) : Addr := BitVec.ofNat 12 sum

/-- The hexadecimal digit of a register: its low nibble (R203). -/
def hexDigit (a : Byte) : Nibble := a.setWidth 4

/-- `FONT_BASE + GLYPH_STRIDE * d` (R203). -/
def glyphAddr (base : Fin 0x1B1) (d : Nibble) : Addr := BitVec.ofNat 12 (base.val + Config.glyphStride * d.toNat)

/-- The three decimal digit values of a byte: hundreds, tens, ones (R204). -/
def bcdDigits (a : Byte) : List Byte := [a / 100, (a / 10) % 10, a % 10]

/-- "The key whose value equals Vx is currently pressed": a value above 15 is no key's, so it is not pressed
(spec/45_keys_timers.md R241). -/
def State.keyIsDown (s : State) (k : Byte) : Bool := decide (k.toNat ≤ 15) && s.keysDown.getLsbD k.toNat

/-- The byte `rand_byte` gives the next execution of Cxkk: the next one the host has supplied, or a free value where it has
supplied none (spec/42_alu.md R185; log entry 5). -/
def State.nextRand (s : State) : Byte :=
  match s.randIn with
  | r :: _ => r
  | []     => Config.randByte s.draws

/-- The draw is consumed: each execution takes a fresh one (R185). -/
def State.consumeRand (s : State) : State := { s with randIn := s.randIn.tail, draws := s.draws + 1 }

end Sys2Proof.Machine
end

