-- ==== Sys2Proof/Machine/Alu.lean ====
section
/-! DEFINITION. Machine/Alu.lean: 6xkk, 7xkk, 8xy0 to 8xy7, 8xyE, Cxkk (spec/42_alu.md). Sources are read first, then the result is written, then the flag, last (R172). None touches PC. -/

namespace Sys2Proof.Machine

/-- 6xkk (R173): `V[x] <- kk`. -/
def execLdImm (x : Nibble) (kk : Byte) (s : State) : Host.Outcome State Fault Refusal :=
  .next (s.writeReg x kk)

/-- 7xkk (R174): `V[x] <- (V[x] + kk) mod 256`, no flag. -/
def execAddImm (x : Nibble) (kk : Byte) (s : State) : Host.Outcome State Fault Refusal :=
  .next (s.writeReg x (s.readReg x + kk))

/-- 8xy0 (R175): `V[x] <- V[y]`. -/
def execLdReg (x y : Nibble) (s : State) : Host.Outcome State Fault Refusal :=
  .next (s.writeReg x (s.readReg y))

/-- 8xy1 (R176): `V[x] <- V[x] OR V[y]`; VF is left alone (R184). -/
def execOrReg (x y : Nibble) (s : State) : Host.Outcome State Fault Refusal :=
  .next (s.writeReg x (s.readReg x ||| s.readReg y))

/-- 8xy2 (R182): `V[x] <- V[x] AND V[y]`; VF is left alone (R184). -/
def execAndReg (x y : Nibble) (s : State) : Host.Outcome State Fault Refusal :=
  .next (s.writeReg x (s.readReg x &&& s.readReg y))

/-- 8xy3 (R183): `V[x] <- V[x] XOR V[y]`; VF is left alone (R184). -/
def execXorReg (x y : Nibble) (s : State) : Host.Outcome State Fault Refusal :=
  .next (s.writeReg x (s.readReg x ^^^ s.readReg y))

/-- 8xy4 (R177): `V[x] <- V[x] + V[y]`, VF <- carry. -/
def execAddReg (x y : Nibble) (s : State) : Host.Outcome State Fault Refusal :=
  .next (s.writeResultFlag x (s.readReg x + s.readReg y) (carryFlag (s.readReg x) (s.readReg y)))

/-- 8xy5 (R178): `V[x] <- V[x] - V[y]`, VF <- no borrow. -/
def execSubReg (x y : Nibble) (s : State) : Host.Outcome State Fault Refusal :=
  .next (s.writeResultFlag x (s.readReg x - s.readReg y) (noBorrowFlag (s.readReg x) (s.readReg y)))

/-- 8xy6 (R179): `V[x] <- V[x] >> 1`, VF <- the bit shifted out; y is named but not used. -/
def execShr (x _y : Nibble) (s : State) : Host.Outcome State Fault Refusal :=
  .next (s.writeResultFlag x (s.readReg x >>> 1) (lowBit (s.readReg x)))

/-- 8xy7 (R180): `V[x] <- V[y] - V[x]`, VF <- no borrow. -/
def execSubnReg (x y : Nibble) (s : State) : Host.Outcome State Fault Refusal :=
  .next (s.writeResultFlag x (s.readReg y - s.readReg x) (noBorrowFlag (s.readReg y) (s.readReg x)))

/-- 8xyE (R181): `V[x] <- V[x] << 1`, VF <- the bit shifted out; y is named but not used. -/
def execShl (x _y : Nibble) (s : State) : Host.Outcome State Fault Refusal :=
  .next (s.writeResultFlag x (s.readReg x <<< 1) (highBit (s.readReg x)))

/-- Cxkk (R185): `V[x] <- rand_byte AND kk`, a fresh draw for this execution. -/
def execRnd (x : Nibble) (kk : Byte) (s : State) : Host.Outcome State Fault Refusal :=
  .next (s.consumeRand.writeReg x (s.nextRand &&& kk))

end Sys2Proof.Machine
end

