-- ==== Sys2Proof/Machine/ControlFlow.lean ====
section
/-! DEFINITION. Machine/ControlFlow.lean: 00EE, 1nnn, 2nnn, Bnnn, 3xkk, 4xkk, 5xy0, 9xy0 (spec/41_control_flow.md). PC on entry is already advanced past the instruction (R123). -/

namespace Sys2Proof.Machine

/-- 00EE (R151): pop the stack into PC; `StackUnderflow` if it is empty. -/
def execRet (s : State) : Host.Outcome State Fault Refusal :=
  .next (match s.pop with
    | some (a, t) => t.setPc a
    | none        => s.raise (.stackUnderflow s.instrAddr))

/-- 1nnn (R152): `PC <- nnn`. -/
def execJp (nnn : Addr) (s : State) : Host.Outcome State Fault Refusal :=
  .next (s.setPc (absTarget nnn))

/-- 2nnn (R153): push the advanced PC, `PC <- nnn`; `StackOverflow` at depth 16. -/
def execCall (nnn : Addr) (s : State) : Host.Outcome State Fault Refusal :=
  .next (match s.push s.pc with
    | some t => t.setPc (absTarget nnn)
    | none   => s.raise (.stackOverflow s.instrAddr))

/-- Bnnn (R154): `PC <- nnn + V0`. -/
def execJpV0 (nnn : Addr) (s : State) : Host.Outcome State Fault Refusal :=
  .next (s.setPc (indexedTarget nnn (s.readReg 0)))

/-- 3xkk (R155): skip if Vx = kk. -/
def execSeImm (x : Nibble) (kk : Byte) (s : State) : Host.Outcome State Fault Refusal :=
  .next (s.skipIf (s.readReg x == kk))

/-- 4xkk (R156): skip if Vx ≠ kk. -/
def execSneImm (x : Nibble) (kk : Byte) (s : State) : Host.Outcome State Fault Refusal :=
  .next (s.skipIf (s.readReg x != kk))

/-- 5xy0 (R157): skip if Vx = Vy. -/
def execSeReg (x y : Nibble) (s : State) : Host.Outcome State Fault Refusal :=
  .next (s.skipIf (s.readReg x == s.readReg y))

/-- 9xy0 (R158): skip if Vx ≠ Vy. -/
def execSneReg (x y : Nibble) (s : State) : Host.Outcome State Fault Refusal :=
  .next (s.skipIf (s.readReg x != s.readReg y))

end Sys2Proof.Machine
end

