-- ==== Sys2Proof/Machine/Display.lean ====
section
/-! DEFINITION. Machine/Display.lean: the Display Surface and its blitter, 00E0 and Dxyn (spec/44_display.md). -/

namespace Sys2Proof.Machine

/-- `DISP[px, py]` (spec/10_state.md R28). -/
def Display.pixel (d : Display) (px : Fin 64) (py : Fin 32) : Bool := d[py.val].getLsbD px.val

/-- `DISP[px, py] <- DISP[px, py] XOR 1`: a sprite bit 1 inverts its pixel (R222). -/
def Display.flip (d : Display) (px : Fin 64) (py : Fin 32) : Display :=
  d.set py.val (d[py.val] ^^^ BitVec.twoPow 64 px.val)

/-- Every pixel 0 (R220). -/
def Display.clear : Display := Vector.replicate 32 0

/-- What a blit carries along: the surface and whether a set pixel has been turned off so far (R225). -/
structure Blit where
  disp : Display
  collision : Bool
  deriving DecidableEq, Repr

/-- One sprite column c of a row byte (R222): a column past the right edge is dropped (R223); bit 7 of the byte is column 0
(R226); a 1 bit on a set pixel is a collision (R225). -/
def blitPixel (row : Byte) (x0 : Nat) (py : Fin 32) (acc : Blit) (c : Nat) : Blit :=
  if h : x0 + c < 64 then
    if row.getLsbD (7 - c) then
      { disp := Display.flip acc.disp ⟨x0 + c, h⟩ py
        collision := acc.collision || Display.pixel acc.disp ⟨x0 + c, h⟩ py }
    else acc
  else acc

/-- One sprite row: its columns 0 to 7 (R222). -/
def blitRow (row : Byte) (x0 : Nat) (py : Fin 32) (acc : Blit) : Blit :=
  [0, 1, 2, 3, 4, 5, 6, 7].foldl (blitPixel row x0 py) acc

/-- The display row of sprite row r: rows wrap at the bottom edge (R224, conflict C4). -/
def blitRowIndex (y0 r : Nat) : Fin 32 := ⟨(y0 + r) % 32, Nat.mod_lt _ (by decide)⟩

/-- The sprite rows from number r on, top to bottom (R222). -/
def blitRows (x0 y0 : Nat) : List Byte → Nat → Blit → Blit
  | [], _, acc => acc
  | row :: rows, r, acc => blitRows x0 y0 rows (r + 1) (blitRow row x0 (blitRowIndex y0 r) acc)

/-- `blit(rows, x, y)`: the origin is wrapped onto the surface once (R222). -/
def blit (d : Display) (rows : List Byte) (x y : Byte) : Blit :=
  blitRows (x.toNat % Config.dispW) (y.toNat % Config.dispH) rows 0 { disp := d, collision := false }

/-- The pixel at column px, row py, as the host and the claims see it (R28, R34). -/
def State.pixel (s : State) (px : Fin 64) (py : Fin 32) : Bool := Display.pixel s.disp px py

/-- 00E0 (R220): every pixel 0. -/
def execCls (s : State) : Host.Outcome State Fault Refusal :=
  .next { s with disp := Display.clear }

/-- The effect of Dxyn once its range is in memory (R221): the n sprite bytes are read first, top row first; the flag is
written last. -/
def State.draw (s : State) (x y n : Nibble) : State :=
  let b := blit s.disp (s.mem.readBlock s.i.toNat n.toNat) (s.readReg x) (s.readReg y)
  { s with disp := b.disp }.setFlag b.collision

/-- Dxyn (R221): draw the n-byte sprite at MEM[I..] at (Vx, Vy); VF <- collision. The range is checked first (R228). -/
def execDrw (x y n : Nibble) (s : State) : Host.Outcome State Fault Refusal :=
  .next (s.whenInRange n.toNat (s.draw x y n))

end Sys2Proof.Machine
end

