-- ==== Sys2Proof/Machine/IndexMemory.lean ====
section
/-! DEFINITION. Machine/IndexMemory.lean: Annn, Fx1E, Fx29, Fx33, Fx55, Fx65 (spec/43_index_memory.md). -/

namespace Sys2Proof.Machine

/-- Annn (R201): `I <- nnn`. -/
def execLdI (nnn : Addr) (s : State) : Host.Outcome State Fault Refusal :=
  .next (s.setI nnn)

/-- The effect of Fx1E under a value of `FX1E_VF_ON_OVERFLOW` (R202): I is wrapped modulo 4096; only where the parameter
is true is VF written, last. -/
def State.addIndex (s : State) (vfOnOverflow : Bool) (a : Byte) : State :=
  let t := s.setI (indexWrap (indexSum s.i a))
  if vfOnOverflow then t.setFlag (indexOverflow (indexSum s.i a)) else t

/-- Fx1E (R202): `I <- (I + V[x]) mod 4096`. -/
def execAddI (x : Nibble) (s : State) : Host.Outcome State Fault Refusal :=
  .next (s.addIndex Config.fx1eVfOnOverflow (s.readReg x))

/-- Fx29 (R203): `I <- FONT_BASE + 5 * (V[x] AND 0x0F)`; no memory access. -/
def execLdFont (x : Nibble) (s : State) : Host.Outcome State Fault Refusal :=
  .next (s.setI (glyphAddr Config.fontBase (hexDigit (s.readReg x))))

/-- Fx33 (R204): the decimal digits of V[x] to MEM[I], MEM[I+1], MEM[I+2]; the range is checked before any write. -/
def execBcd (x : Nibble) (s : State) : Host.Outcome State Fault Refusal :=
  .next (s.whenInRange 3 { s with mem := s.mem.writeBlock s.i.toNat (bcdDigits (s.readReg x)) })

/-- Fx55 (R205): V[0]..V[x] to MEM[I]..MEM[I+x]; I is unchanged (R207). -/
def execStore (x : Nibble) (s : State) : Host.Outcome State Fault Refusal :=
  .next (s.whenInRange (x.toNat + 1) { s with mem := s.mem.writeBlock s.i.toNat (s.readRegs x) })

/-- Fx65 (R206): MEM[I]..MEM[I+x] to V[0]..V[x]; I is unchanged (R207). -/
def execLoad (x : Nibble) (s : State) : Host.Outcome State Fault Refusal :=
  .next (s.whenInRange (x.toNat + 1) (s.writeRegs (s.mem.readBlock s.i.toNat (x.toNat + 1))))

end Sys2Proof.Machine
end

