-- ==== Sys2Proof/Machine/KeysTimers.lean ====
section
/-! DEFINITION. Machine/KeysTimers.lean: Ex9E, ExA1, Fx0A, Fx07, Fx15, Fx18 (spec/45_keys_timers.md). -/

namespace Sys2Proof.Machine

/-- Ex9E (R241): skip if the key whose value equals Vx is down. -/
def execSkp (x : Nibble) (s : State) : Host.Outcome State Fault Refusal :=
  .next (s.skipIf (s.keyIsDown (s.readReg x)))

/-- ExA1 (R242): skip if that key is not down. -/
def execSknp (x : Nibble) (s : State) : Host.Outcome State Fault Refusal :=
  .next (s.skipIf (!s.keyIsDown (s.readReg x)))

/-- Fx0A (R243): `WAIT_X <- x; RUN <- WaitingForKey`; V[x] is written later, by `key_press` (`State.keyPress`). -/
def execLdKey (x : Nibble) (s : State) : Host.Outcome State Fault Refusal :=
  .next { s with waitX := x, run := .waitingForKey }

/-- Fx07 (R244): `V[x] <- DT`. -/
def execLdFromDt (x : Nibble) (s : State) : Host.Outcome State Fault Refusal :=
  .next (s.writeReg x s.dt)

/-- Fx15 (R245): `DT <- V[x]`. -/
def execLdDt (x : Nibble) (s : State) : Host.Outcome State Fault Refusal :=
  .next { s with dt := s.readReg x }

/-- Fx18 (R246): `ST <- V[x]`. -/
def execLdSt (x : Nibble) (s : State) : Host.Outcome State Fault Refusal :=
  .next { s with st := s.readReg x }

end Sys2Proof.Machine
end

