-- ==== Sys2Proof/Machine/Unknown.lean ====
section
/-! DEFINITION. Machine/Unknown.lean: the variant `Unknown(word)` (spec/60_exceptions.md R267, R268). -/

namespace Sys2Proof.Machine

/-- `execute(Unknown(word))` (R267): no state change of its own; the open parameter `UNKNOWN_POLICY` says whether the run goes
on (R268). It is surfaced by `State.cycleResult` as a result of its own, never as `Ok`. -/
def execUnknown (word : Word) (s : State) : Host.Outcome State Fault Refusal :=
  .next (s.surfaceUnknown Config.unknownPolicy word)

end Sys2Proof.Machine
end

