-- ==== Sys2Proof/Machine/Step.lean ====
section
/-! DEFINITION. Machine/Step.lean: `cycle()` (spec/40_cycle.md R120), and a state whose next cycle runs a given instruction. -/

namespace Sys2Proof.Machine

/-- One cycle: the run-state tests, fetch, advance and decode of `State.beginCycle`, then execution (R120). -/
def step (s : State) : Host.Outcome State Fault Refusal :=
  match s.beginCycle with
  | .error o    => o
  | .ok (i, t)  => exec i t

/-- s with the instruction whose bits are w (numbered as the opcode table numbers them) stored where the next cycle fetches.
A machine that would not fetch at all is made to: a waiting or halted one runs again, and a PC above 0xFFE, from which
no fetch succeeds (R122), becomes 0x200. -/
def State.withFetchWord (s : State) (nbits w : Nat) : State :=
  let pc : Word := if s.pc.toNat ≤ 0xFFE then s.pc else 0x200
  { s with
    pc := pc
    run := .running
    fault := none
    mem := s.mem.writeBlock pc.toNat (bytesOfWord (tableWord nbits w)) }

end Sys2Proof.Machine
end

