-- ==== Sys2Proof/Machine/HostOps.lean ====
section
/-! DEFINITION. Machine/HostOps.lean: the host's operations on the core other than `cycle()` (spec/00_scope.md R8): each is atomic and falls between cycles (R9, R272). -/

namespace Sys2Proof.Machine

/-- What a refused host call returns (spec/20_memory.md R75, spec/70_reset_and_hazards.md R303); the machine is not halted. -/
inductive HostError where
  | outOfBoundsAccess (addr : Nat)
  | imageTooLarge (length : Nat)
  deriving DecidableEq, Repr

/-- The numeric code of a recorded condition (spec/60_exceptions.md R261; the spec's own numbering). -/
def Fault.code : Fault → Nat
  | .outOfBoundsAccess _  => 1
  | .stackOverflow _      => 2
  | .stackUnderflow _     => 3
  | .unknownInstruction _ => 5

/-- The info value of a recorded condition (R261). -/
def Fault.info : Fault → Word
  | .outOfBoundsAccess a  => a
  | .stackOverflow a      => a
  | .stackUnderflow a     => a
  | .unknownInstruction w => w

/-- The numeric code of a host call's refusal (R261). -/
def HostError.code : HostError → Nat
  | .outOfBoundsAccess _ => 1
  | .imageTooLarge _     => 4

/-- `reset()` (spec/70_reset_and_hazards.md R300): the reset values of R37. MEM, STACK and WAIT_X are not written; the inputs
are the host's. -/
def State.hostReset (s : State) : State :=
  { State.reset with
    mem := s.mem
    stack := s.stack
    waitX := s.waitX
    keysDown := s.keysDown
    randIn := s.randIn
    draws := s.draws }

/-- `load_image(bytes)` (R303): copied to 0x200 upward, or refused whole when it would pass 0xFFF. -/
def State.loadImage (s : State) (bytes : List Byte) : Except HostError State :=
  if Config.progBase + bytes.length ≤ Config.memSize then
    .ok { s with mem := s.mem.writeBlock Config.progBase bytes }
  else .error (.imageTooLarge bytes.length)

/-- `read_byte(addr)` (spec/20_memory.md R75). -/
def State.readByte (s : State) (addr : Nat) : Except HostError Byte :=
  if addr < Config.memSize then .ok (s.mem.read addr) else .error (.outOfBoundsAccess addr)

/-- `write_byte(addr, v)` (R75). -/
def State.writeByte (s : State) (addr : Nat) (b : Byte) : Except HostError State :=
  if addr < Config.memSize then .ok { s with mem := s.mem.write addr b } else .error (.outOfBoundsAccess addr)

/-- `key_press(K)` (spec/40_cycle.md R131): completes a waiting Fx0A; in any other run state the event is lost. -/
def State.keyPress (s : State) (k : Nibble) : State :=
  match s.run with
  | .waitingForKey => { s.writeReg s.waitX (k.setWidth 8) with run := .running }
  | _ => s

/-- A timer counted down once, with its floor at 0 (spec/60_exceptions.md R275). -/
def countDown (b : Byte) : Byte := if b = 0 then 0 else b - 1

/-- `tick_timers()` (R275): both timers, in every run state, and nothing else. -/
def State.tickTimers (s : State) : State := { s with dt := countDown s.dt, st := countDown s.st }

/-- `is_blocked()` (spec/40_cycle.md R132). -/
def State.isBlocked (s : State) : Bool := s.run == .waitingForKey

/-- `sound_active`: ST ≠ 0 (spec/10_state.md R34). -/
def State.soundActive (s : State) : Bool := s.st != 0

/-- The key-input collaborator's level input (R33). -/
def State.setKeysDown (s : State) (keys : BitVec 16) : State := { s with keysDown := keys }

/-- The host supplies the byte of a coming draw (R33, R305). -/
def State.supplyRand (s : State) (b : Byte) : State := { s with randIn := s.randIn ++ [b] }

/-- What the host can do between cycles: the operations of R8 other than `cycle()`, and the inputs of R33. -/
inductive HostOp where
  | reset
  | loadImage (bytes : List Byte)
  | readByte (addr : Nat)
  | writeByte (addr : Nat) (b : Byte)
  | keyPress (k : Nibble)
  | tickTimers
  | isBlocked
  | setKeysDown (keys : BitVec 16)
  | supplyRand (b : Byte)
  deriving DecidableEq, Repr

/-- The state after a host operation; a refused call leaves it unchanged (R75, R303), a read too. -/
def State.hostOp (s : State) : HostOp → State
  | .reset => s.hostReset
  | .loadImage bytes =>
    match s.loadImage bytes with
    | .ok t    => t
    | .error _ => s
  | .readByte _ => s
  | .writeByte addr b =>
    match s.writeByte addr b with
    | .ok t    => t
    | .error _ => s
  | .keyPress k => s.keyPress k
  | .tickTimers => s.tickTimers
  | .isBlocked => s
  | .setKeysDown keys => s.setKeysDown keys
  | .supplyRand b => s.supplyRand b

end Sys2Proof.Machine
end

