-- ==== Sys2Proof/Machine/Result.lean ====
section
/-! DEFINITION. Machine/Result.lean: what `cycle()` returns (spec/40_cycle.md R121), computed from the state the cycle starts in: it is no state of the core. -/

namespace Sys2Proof.Machine

/-- The external-visible effects of an executed operation (R121). -/
structure Effects where
  screenChanged : Bool   -- the operation was 00E0 or Dxyn
  waitingForKey : Bool   -- RUN = WaitingForKey after the cycle
  soundTrigger  : Bool   -- the operation was Fx18
  deriving DecidableEq, Repr

/-- The result of `cycle()` (R121). -/
inductive CycleResult where
  | ok (effects : Effects)
  | blocked
  | unknownInstruction (word : Word)
  | fatal (f : Fault)
  deriving DecidableEq, Repr

/-- The effects of an operation that left the state t (R121). -/
def effectsOf (i : Instr) (t : State) : Effects where
  screenChanged := match i with
    | .cls | .drw _ _ _ => true
    | _ => false
  waitingForKey := t.run == .waitingForKey
  soundTrigger := match i with
    | .ldSt _ => true
    | _ => false

/-- The result of executing i with outcome o (R120, R121): an `Unknown` word is surfaced as itself (R267); a condition raised
in the cycle is what FAULT then records (R262). No operation answers a fault or a refusal (every meaning is a next state). -/
def resultOf (i : Instr) (o : Host.Outcome State Fault Refusal) : CycleResult :=
  match i, o with
  | .unknown w, _ => .unknownInstruction w
  | i, .next t =>
    match t.run, t.fault with
    | .halted, some f => .fatal f
    | _, _            => .ok (effectsOf i t)
  | _, .fault f => .fatal f
  | _, .refused _ => .blocked

/-- The result of `cycle()` invoked in s (R120, R121). A halted machine always has a record (R31); the case without one is no
state that a run reaches. -/
def State.cycleResult (s : State) : CycleResult :=
  match s.run with
  | .waitingForKey => .blocked
  | .halted =>
    match s.fault with
    | some f => .fatal f
    | none   => .blocked
  | .running =>
    match s.fetch with
    | .error f => .fatal f
    | .ok w    => resultOf (decode w) (step s)

end Sys2Proof.Machine
end

