-- ==== Sys2Proof/Safety.lean ====
section
/-! DEFINITION. Safety.lean: the machine's invariant and the notions of a good run that claims use. -/

namespace Sys2Proof.Machine

/-- What holds at reset and is kept by every cycle and every host operation: memory is in canonical form; PC stays within
the bound of spec/10_state.md R22; every return address held is one a fetch can leave (R22, R24); FAULT is recorded exactly
while the machine is halted (R31). -/
structure State.Inv (s : State) : Prop where
  memWf : s.mem.wf = true
  pcBound : s.pc.toNat ≤ 0x10FE
  stackBound : ∀ k : Fin 16, k.val < s.sp.val → s.stack[k.val].toNat ≤ 0x1000
  haltedIffFault : s.run = .halted ↔ s.fault ≠ none

/-- "parked": the machine runs and the word at PC is a jump to itself (spec/70_reset_and_hazards.md R313). -/
def State.Parked (s : State) : Prop :=
  s.run = .running ∧ ∃ w nnn, s.fetch = .ok w ∧ decode w = .jp nnn ∧ absTarget nnn = s.pc

/-- t is s but for V registers of the list xs: every other register and every other field is as in s. -/
def State.OnlyRegs (s t : State) (xs : List Nibble) : Prop :=
  t = { s with v := t.v } ∧ ∀ r, r ∉ xs → t.readReg r = s.readReg r

/-- A 1 bit of the sprite that Dxyn draws in s falls on the pixel (px, py): some sprite row r < n and sprite column c < 8
have their bit set, column c stands at (Vx mod 64) + c and is dropped beyond column 63, row r stands at
((Vy mod 32) + r) mod 32 (spec/44_display.md R222, R223, R224, R226). -/
def State.SpriteCovers (s : State) (x y n : Nibble) (px : Fin 64) (py : Fin 32) : Prop :=
  ∃ r c : Nat, r < n.toNat ∧ c < 8 ∧ px.val = (s.readReg x).toNat % 64 + c ∧
    py.val = ((s.readReg y).toNat % 32 + r) % 32 ∧ (s.mem.read (s.i.toNat + r)).getLsbD (7 - c) = true

end Sys2Proof.Machine
end

