-- ==== Sys2Proof/Certificates/Slice0/Obligations.lean ====
section
/-! DEFINITION. Certificates/Slice0/Obligations.lean: the statements for the provers. In every statement about `exec`, PC of the state it is given is already advanced past the instruction (spec/40_cycle.md R123). -/

open Sys2Proof Sys2Proof.Machine

/-! ### Encoding (spec/30_encoding.md) -/

/-- The example words of R103 and the two fixed words of R98, written out bit by bit, decode to what they stand for. -/
def Obligations.DecoderReadsTheSpecsWords : Prop :=
  decode 0b0110001101111111 = .ldImm 3 0x7F ∧
  decode 0b1000101010110100 = .addReg 0xA 0xB ∧
  decode 0b1101000000010101 = .drw 0 1 5 ∧
  decode 0b1110001010011110 = .skp 2 ∧
  decode 0b1010001000101010 = .ldI 0x22A ∧
  decode 0b0000000011100000 = .cls ∧
  decode 0b0000000011101110 = .ret

/-- Every well-formed instruction is decoded from its own encoding, with every operand at every value (R94, R103). -/
def Obligations.DecodeOfEncodeIsTheInstruction : Prop :=
  ∀ i : Instr, i.wellFormed = true → decode (encode i) = i

/-- Every word is the encoding of what it decodes to, and that is well-formed: no bit of any word is lost (R94, R96, R103). -/
def Obligations.EncodeOfDecodeIsTheWord : Prop :=
  ∀ w : Word, encode (decode w) = w ∧ (decode w).wellFormed = true

/-- A word decodes to `Unknown` of itself exactly when it selects no row of the opcode map, and to no other `Unknown`; a word
that selects a row of the map decodes to an instruction of that row, so no two rows overlap (R95, R96, R97). That 5xyN and 9xyN with N not 0 are outside the
map, hence `Unknown`, is the spec's own decision D4 (R97, log entry 9). -/
def Obligations.UnknownIsEveryWordOutsideTheMap : Prop :=
  ∀ w : Word,
    (decode w = .unknown w ↔ definedWord w = false) ∧
    (∀ w', decode w = .unknown w' → w' = w) ∧
    (∀ r ∈ opcodeRows, r.selects w = true → (decode w).row = r)

/-! ### The cycle (spec/40_cycle.md) -/

/-- A running machine with PC ≤ 0xFFE executes, in one cycle, the instruction decoded from the word of the two bytes at PC,
high byte first, with PC advanced by 2 and nothing else changed before the operation (R64, R120, R122, R123; that a fetch
succeeds exactly up to 0xFFE is the spec's own decision D1). -/
def Obligations.StepRunsTheDecodedInstruction : Prop :=
  ∀ (s : State) (w : Word), s.run = .running → s.pc.toNat ≤ 0xFFE →
    w.toNat = (s.mem.read s.pc.toNat).toNat * 256 + (s.mem.read (s.pc.toNat + 1)).toNat →
    step s = exec (decode w) { s with pc := s.pc + 2 }

/-- A running machine with PC > 0xFFE halts on the fetch: FAULT records the lowest fetch address out of range (0x1000 for
PC = 0xFFF, else PC), RUN is Halted, PC is not advanced, nothing else changes (R122, R262, R263; the representation is the spec's own decision D14). -/
def Obligations.FetchBeyondMemoryHalts : Prop :=
  ∀ s : State, s.run = .running → 0xFFE < s.pc.toNat →
    step s = .next { s with
      run := .halted, fault := some (.outOfBoundsAccess (if s.pc = 0xFFF then 0x1000 else s.pc)) }

/-- While the machine waits for a key, a cycle changes no state and its result is `Blocked` (R126, the spec's own decision D15). -/
def Obligations.WaitingCycleChangesNothing : Prop :=
  ∀ s : State, s.run = .waitingForKey → step s = .next s ∧ s.cycleResult = .blocked ∧ s.isBlocked = true

/-- Halted is permanent: a cycle's result is the recorded condition, and the model's `step` answers `.fault` with that condition
and no next state; every host operation but `reset()` leaves RUN and FAULT as they are
(R127, R264; the spec's own decision D15; the answer `.fault` of `step` is the model's choice, log entry 12). -/
def Obligations.HaltedIsPermanentUntilReset : Prop :=
  ∀ (s : State) (f : Fault), s.run = .halted → s.fault = some f →
    step s = .fault f ∧ s.cycleResult = .fatal f ∧
    ∀ op : HostOp, op ≠ .reset → (s.hostOp op).run = .halted ∧ (s.hostOp op).fault = some f

/-- A cycle always answers: a next state, or, and then the machine is already halted, a fault that is the recorded condition; it
never refuses (R120, R124, R127; that a cycle is defined on a halted or waiting machine is the spec's own decision D15). That a
condition raised in the cycle is a next state, that only an already halted machine's step answers `.fault`, and that a halted
machine without a record answers a next state, is the model's choice, log entry 12. -/
def Obligations.CycleAlwaysAnswers : Prop :=
  ∀ s : State, (∃ t, step s = .next t) ∨ (∃ f, s.run = .halted ∧ s.fault = some f ∧ step s = .fault f)

/-- The result of a cycle of a running machine agrees with the state after it: it is `Fatal(f)` exactly when the machine has
halted with f in FAULT, the fetched word, if any, being none that is surfaced as `Unknown`; after `Ok(effects)` it has not
halted, `screen_changed` says that 00E0 or Dxyn was executed, `sound_trigger` that Fx18 was, and `waiting_for_key` that the
machine now waits (R121, R262, R267; the effects are the spec's own decision D25, the halted state D14; that a raised condition is
a next state is the model's choice, log entry 12). -/
def Obligations.ResultAgreesWithTheStateAfter : Prop :=
  ∀ s : State, s.run = .running →
    (∀ f, s.cycleResult = .fatal f ↔
      (∃ t, step s = .next t ∧ t.run = .halted ∧ t.fault = some f) ∧ ∀ w, s.fetch = .ok w → definedWord w = true) ∧
    (∀ e, s.cycleResult = .ok e → ∃ t w, s.fetch = .ok w ∧ step s = .next t ∧ t.run ≠ .halted ∧
      (e.waitingForKey = true ↔ t.run = .waitingForKey) ∧
      (e.screenChanged = true ↔ (decode w = .cls ∨ ∃ x y n, decode w = .drw x y n)) ∧
      (e.soundTrigger = true ↔ ∃ x, decode w = .ldSt x))

/-- A parked machine, whose word at PC jumps to itself, stays as it is in every cycle (R313, R152; the notion "parked" is the spec's
own decision D22). -/
def Obligations.ParkedMachineStays : Prop :=
  ∀ s : State, s.Parked → step s = .next s

/-! ### Control flow (spec/41_control_flow.md) -/

/-- 1nnn: encoded 0x1000 OR nnn, it sets PC to nnn and changes nothing else (R152). -/
def Obligations.JumpGoesToTheLiteral : Prop :=
  ∀ (nnn : Addr) (s : State),
    decode (0x1000#16 ||| nnn.setWidth 16) = .jp nnn ∧
    exec (.jp nnn) s = .next { s with pc := nnn.setWidth 16 }

/-- 00EE pops the newest return address into PC; on an empty stack it raises `StackUnderflow` with its own address and changes
nothing else (R24, R151, R262; the spec's own decisions: the stack's layout D3, what a raise leaves D14, its info D18). -/
def Obligations.ReturnPopsTheStack : Prop :=
  decode 0x00EE = .ret ∧
  ∀ s : State,
    (∀ h : 0 < s.sp.val, exec .ret s = .next { s with
      sp := ⟨s.sp.val - 1, by omega⟩, pc := s.stack[s.sp.val - 1]'(by omega) }) ∧
    (s.sp.val = 0 → exec .ret s = .next { s with
      run := .halted, fault := some (.stackUnderflow (s.pc - 2)) })

/-- 2nnn pushes the advanced PC and sets PC to nnn; with 16 addresses held it raises `StackOverflow` with its own address and
changes nothing else, PC included (R24, R153, R262; the spec's own decisions: the stack's layout D3, what a raise leaves D14, its
info D18). -/
def Obligations.CallPushesTheReturnAddress : Prop :=
  ∀ (nnn : Addr) (s : State),
    decode (0x2000#16 ||| nnn.setWidth 16) = .call nnn ∧
    (∀ h : s.sp.val < 16, exec (.call nnn) s = .next { s with
      stack := s.stack.set s.sp.val s.pc h, sp := ⟨s.sp.val + 1, by omega⟩, pc := nnn.setWidth 16 }) ∧
    (s.sp.val = 16 → exec (.call nnn) s = .next { s with
      run := .halted, fault := some (.stackOverflow (s.pc - 2)) })

/-- A call followed by a return comes back to the instruction after the call with the same depth; only the dead stack entry
may differ (R151, R153). -/
def Obligations.CallThenReturnComesBack : Prop :=
  ∀ (nnn : Addr) (s t u : State), s.sp.val < 16 → exec (.call nnn) s = .next t →
    u.stack = t.stack → u.sp = t.sp →
    ∃ w, exec .ret u = .next w ∧ w.pc = s.pc ∧ w.sp = s.sp ∧
      ∀ k : Fin 16, k.val < s.sp.val → w.stack[k.val] = s.stack[k.val]

/-- Bnnn: PC becomes nnn + V0, whatever bits 11:8 are, not reduced modulo 4096 (R154; the missing reduction is the spec's own decision D1). -/
def Obligations.IndexedJumpAddsV0 : Prop :=
  ∀ (nnn : Addr) (s : State),
    decode (0xB000#16 ||| nnn.setWidth 16) = .jpV0 nnn ∧
    ∃ t, exec (.jpV0 nnn) s = .next t ∧ t.pc.toNat = nnn.toNat + (s.readReg 0).toNat ∧ t = { s with pc := t.pc }

/-- 3xkk skips exactly when Vx = kk, 4xkk exactly when Vx ≠ kk; nothing but PC changes (R155, R156). -/
def Obligations.ImmediateSkipsCompareWithTheLiteral : Prop :=
  ∀ (x : Nibble) (kk : Byte) (s : State),
    decode (0x3000#16 ||| (x.setWidth 16 <<< 8) ||| kk.setWidth 16) = .seImm x kk ∧
    decode (0x4000#16 ||| (x.setWidth 16 <<< 8) ||| kk.setWidth 16) = .sneImm x kk ∧
    exec (.seImm x kk) s = .next { s with pc := if s.readReg x = kk then s.pc + 2 else s.pc } ∧
    exec (.sneImm x kk) s = .next { s with pc := if s.readReg x ≠ kk then s.pc + 2 else s.pc }

/-- 5xy0 skips exactly when Vx = Vy, 9xy0 exactly when Vx ≠ Vy; nothing but PC changes (R157, R158). -/
def Obligations.RegisterSkipsCompareTheRegisters : Prop :=
  ∀ (x y : Nibble) (s : State),
    decode (0x5000#16 ||| (x.setWidth 16 <<< 8) ||| (y.setWidth 16 <<< 4)) = .seReg x y ∧
    decode (0x9000#16 ||| (x.setWidth 16 <<< 8) ||| (y.setWidth 16 <<< 4)) = .sneReg x y ∧
    exec (.seReg x y) s = .next { s with pc := if s.readReg x = s.readReg y then s.pc + 2 else s.pc } ∧
    exec (.sneReg x y) s = .next { s with pc := if s.readReg x ≠ s.readReg y then s.pc + 2 else s.pc }

/-! ### Loads, arithmetic, logic (spec/42_alu.md) -/

/-- 6xkk writes kk, 8xy0 writes Vy, to Vx and to nothing else (R173, R175). -/
def Obligations.LoadsCopyIntoTheRegister : Prop :=
  ∀ (x y : Nibble) (kk : Byte) (s : State),
    decode (0x6000#16 ||| (x.setWidth 16 <<< 8) ||| kk.setWidth 16) = .ldImm x kk ∧
    decode (0x8000#16 ||| (x.setWidth 16 <<< 8) ||| (y.setWidth 16 <<< 4)) = .ldReg x y ∧
    (∃ t, exec (.ldImm x kk) s = .next t ∧ t.readReg x = kk ∧ s.OnlyRegs t [x]) ∧
    (∃ t, exec (.ldReg x y) s = .next t ∧ t.readReg x = s.readReg y ∧ s.OnlyRegs t [x])

/-- 7xkk adds kk to Vx modulo 256 and writes nothing else: VF keeps its value unless it is the destination (R174). -/
def Obligations.AddImmediateWrapsWithoutFlag : Prop :=
  ∀ (x : Nibble) (kk : Byte) (s : State),
    decode (0x7000#16 ||| (x.setWidth 16 <<< 8) ||| kk.setWidth 16) = .addImm x kk ∧
    ∃ t, exec (.addImm x kk) s = .next t ∧
      (t.readReg x).toNat = ((s.readReg x).toNat + kk.toNat) % 256 ∧ s.OnlyRegs t [x]

/-- 8xy1, 8xy2, 8xy3 write OR, AND, XOR of Vx and Vy, bit by bit, to Vx and to nothing else (R176, R182, R183). -/
def Obligations.LogicIsBitwiseWithoutFlag : Prop :=
  ∀ (x y : Nibble) (s : State),
    decode (0x8001#16 ||| (x.setWidth 16 <<< 8) ||| (y.setWidth 16 <<< 4)) = .orReg x y ∧
    decode (0x8002#16 ||| (x.setWidth 16 <<< 8) ||| (y.setWidth 16 <<< 4)) = .andReg x y ∧
    decode (0x8003#16 ||| (x.setWidth 16 <<< 8) ||| (y.setWidth 16 <<< 4)) = .xorReg x y ∧
    (∃ t, exec (.orReg x y) s = .next t ∧ s.OnlyRegs t [x] ∧
      ∀ k, (t.readReg x).getLsbD k = ((s.readReg x).getLsbD k || (s.readReg y).getLsbD k)) ∧
    (∃ t, exec (.andReg x y) s = .next t ∧ s.OnlyRegs t [x] ∧
      ∀ k, (t.readReg x).getLsbD k = ((s.readReg x).getLsbD k && (s.readReg y).getLsbD k)) ∧
    (∃ t, exec (.xorReg x y) s = .next t ∧ s.OnlyRegs t [x] ∧
      ∀ k, (t.readReg x).getLsbD k = ((s.readReg x).getLsbD k ^^ (s.readReg y).getLsbD k))

/-- 8xy4: Vx becomes the sum modulo 256, then VF, last, becomes 1 if the unwrapped sum exceeds 255, else 0 (R177). -/
def Obligations.AddSetsTheCarry : Prop :=
  ∀ (x y : Nibble) (s : State),
    decode (0x8004#16 ||| (x.setWidth 16 <<< 8) ||| (y.setWidth 16 <<< 4)) = .addReg x y ∧
    ∃ t, exec (.addReg x y) s = .next t ∧
      (x ≠ 0xF → (t.readReg x).toNat = ((s.readReg x).toNat + (s.readReg y).toNat) % 256) ∧
      t.readReg 0xF = (if (s.readReg x).toNat + (s.readReg y).toNat > 255 then 1 else 0) ∧
      s.OnlyRegs t [x, 0xF]

/-- 8xy5 and 8xy7: Vx becomes Vx − Vy, respectively Vy − Vx, modulo 256, then VF, last, becomes 1 if the minuend was at least
the subtrahend, else 0 (R178, R180). -/
def Obligations.SubtractsSetNoBorrow : Prop :=
  ∀ (x y : Nibble) (s : State),
    decode (0x8005#16 ||| (x.setWidth 16 <<< 8) ||| (y.setWidth 16 <<< 4)) = .subReg x y ∧
    decode (0x8007#16 ||| (x.setWidth 16 <<< 8) ||| (y.setWidth 16 <<< 4)) = .subnReg x y ∧
    (∃ t, exec (.subReg x y) s = .next t ∧
      (x ≠ 0xF → (t.readReg x).toNat = (256 + (s.readReg x).toNat - (s.readReg y).toNat) % 256) ∧
      t.readReg 0xF = (if (s.readReg x).toNat ≥ (s.readReg y).toNat then 1 else 0) ∧
      s.OnlyRegs t [x, 0xF]) ∧
    (∃ t, exec (.subnReg x y) s = .next t ∧
      (x ≠ 0xF → (t.readReg x).toNat = (256 + (s.readReg y).toNat - (s.readReg x).toNat) % 256) ∧
      t.readReg 0xF = (if (s.readReg y).toNat ≥ (s.readReg x).toNat then 1 else 0) ∧
      s.OnlyRegs t [x, 0xF])

/-- 8xy6 and 8xyE: Vx moves right, respectively left, by one bit with a 0 shifted in, then VF, last, becomes the bit shifted
out; y plays no part (R179, R181; for x = 0xF the order is the spec's own decision D5). -/
def Obligations.ShiftsMoveOneBitIntoVF : Prop :=
  ∀ (x y : Nibble) (s : State),
    decode (0x8006#16 ||| (x.setWidth 16 <<< 8) ||| (y.setWidth 16 <<< 4)) = .shr x y ∧
    decode (0x800E#16 ||| (x.setWidth 16 <<< 8) ||| (y.setWidth 16 <<< 4)) = .shl x y ∧
    (∃ t, exec (.shr x y) s = .next t ∧
      (x ≠ 0xF → (t.readReg x).toNat = (s.readReg x).toNat / 2) ∧
      (t.readReg 0xF).toNat = (s.readReg x).toNat % 2 ∧ s.OnlyRegs t [x, 0xF]) ∧
    (∃ t, exec (.shl x y) s = .next t ∧
      (x ≠ 0xF → (t.readReg x).toNat = (s.readReg x).toNat * 2 % 256) ∧
      (t.readReg 0xF).toNat = (s.readReg x).toNat / 128 ∧ s.OnlyRegs t [x, 0xF])

/-- Cxkk: Vx becomes a byte AND kk, where the byte is the next one the host has supplied, or a free value that nothing constrains
where it has supplied none; the draw is consumed; so Vx has no 1 bit where kk has none (R185; the input's form is the
spec's own decision D17 and log entry 5, and the statement holds for every value of the free byte). -/
def Obligations.RandomByteIsMasked : Prop :=
  ∀ (x : Nibble) (kk : Byte) (s : State),
    decode (0xC000#16 ||| (x.setWidth 16 <<< 8) ||| kk.setWidth 16) = .rnd x kk ∧
    ∃ t, exec (.rnd x kk) s = .next t ∧
      (∀ b bs, s.randIn = b :: bs → t.readReg x = b &&& kk ∧ t.randIn = bs) ∧
      (s.randIn = [] → t.readReg x = Config.randByte s.draws &&& kk ∧ t.randIn = []) ∧
      (t.readReg x) &&& ~~~kk = 0 ∧
      t.draws = s.draws + 1 ∧
      (∀ r, r ≠ x → t.readReg r = s.readReg r) ∧
      t = { s with v := t.v, randIn := t.randIn, draws := t.draws }

/-! ### Index register and memory (spec/43_index_memory.md) -/

/-- Annn: encoded 0xA000 OR nnn, it sets I to nnn and changes nothing else (R201). -/
def Obligations.LoadIndexTakesTheLiteral : Prop :=
  ∀ (nnn : Addr) (s : State),
    decode (0xA000#16 ||| nnn.setWidth 16) = .ldI nnn ∧
    exec (.ldI nnn) s = .next { s with i := nnn }

/-- Fx1E: I becomes (I + Vx) mod 4096; where `FX1E_VF_ON_OVERFLOW` is false nothing else changes, where it is true VF, last,
becomes 1 if the sum exceeds 0xFFF, else 0, and nothing else changes (R202; the parameter is OPEN, log entry 6). -/
def Obligations.AddIndexWraps : Prop :=
  ∀ (x : Nibble) (s : State),
    decode (0xF01E#16 ||| (x.setWidth 16 <<< 8)) = .addI x ∧
    ∃ t, exec (.addI x) s = .next t ∧
      t.i.toNat = (s.i.toNat + (s.readReg x).toNat) % 4096 ∧
      (Config.fx1eVfOnOverflow = false → t = { s with i := t.i }) ∧
      (Config.fx1eVfOnOverflow = true →
        t.readReg 0xF = (if s.i.toNat + (s.readReg x).toNat > 0xFFF then 1 else 0) ∧
        (∀ r, r ≠ 0xF → t.readReg r = s.readReg r) ∧ t = { s with i := t.i, v := t.v })

/-- Fx29: I becomes the address FONT_BASE + 5 · (Vx mod 16), inside the reserved region, and nothing else changes
(R203; FONT_BASE is OPEN, the stride and the masking are the spec's own decision D8, log entry 8). -/
def Obligations.FontAddressIsInTheReservedRegion : Prop :=
  ∀ (x : Nibble) (s : State),
    decode (0xF029#16 ||| (x.setWidth 16 <<< 8)) = .ldFont x ∧
    ∃ t, exec (.ldFont x) s = .next t ∧
      t.i.toNat = Config.fontBase.val + 5 * ((s.readReg x).toNat % 16) ∧
      t.i.toNat + 4 ≤ 0x1FF ∧ t = { s with i := t.i }

/-- Fx33, with I + 2 in memory: the hundreds, tens and ones digits of Vx are stored at I, I + 1, I + 2, every other byte reads
as before, memory stays in canonical form, and nothing else changes (R204). -/
def Obligations.BcdStoresTheDecimalDigits : Prop :=
  ∀ (x : Nibble) (s : State), s.mem.wf = true → s.i.toNat + 2 ≤ 0xFFF →
    decode (0xF033#16 ||| (x.setWidth 16 <<< 8)) = .bcd x ∧
    ∃ t, exec (.bcd x) s = .next t ∧
      (t.mem.read s.i.toNat).toNat = (s.readReg x).toNat / 100 ∧
      (t.mem.read (s.i.toNat + 1)).toNat = (s.readReg x).toNat / 10 % 10 ∧
      (t.mem.read (s.i.toNat + 2)).toNat = (s.readReg x).toNat % 10 ∧
      (∀ a, ¬ (s.i.toNat ≤ a ∧ a < s.i.toNat + 3) → t.mem.read a = s.mem.read a) ∧
      t.mem.wf = true ∧ t = { s with mem := t.mem }

/-- Fx55, with I + x in memory: V[k] is stored at I + k for every k ≤ x, every other byte reads as before, memory stays in
canonical form, and nothing else changes, I included (R205, R207). -/
def Obligations.StoreWritesTheRegisterBlock : Prop :=
  ∀ (x : Nibble) (s : State), s.mem.wf = true → s.i.toNat + x.toNat ≤ 0xFFF →
    decode (0xF055#16 ||| (x.setWidth 16 <<< 8)) = .store x ∧
    ∃ t, exec (.store x) s = .next t ∧
      (∀ k : Nibble, k.toNat ≤ x.toNat → t.mem.read (s.i.toNat + k.toNat) = s.readReg k) ∧
      (∀ a, ¬ (s.i.toNat ≤ a ∧ a ≤ s.i.toNat + x.toNat) → t.mem.read a = s.mem.read a) ∧
      t.mem.wf = true ∧ t = { s with mem := t.mem }

/-- Fx65, with I + x in memory: V[k] becomes the byte at I + k for every k ≤ x; registers above Vx, memory, I and everything
else are unchanged (R206, R207). -/
def Obligations.LoadReadsTheRegisterBlock : Prop :=
  ∀ (x : Nibble) (s : State), s.i.toNat + x.toNat ≤ 0xFFF →
    decode (0xF065#16 ||| (x.setWidth 16 <<< 8)) = .load x ∧
    ∃ t, exec (.load x) s = .next t ∧
      (∀ k : Nibble, k.toNat ≤ x.toNat → t.readReg k = s.mem.read (s.i.toNat + k.toNat)) ∧
      (∀ k : Nibble, x.toNat < k.toNat → t.readReg k = s.readReg k) ∧
      (∀ a, t.mem.read a = s.mem.read a) ∧ t = { s with v := t.v }

/-- Dxyn, Fx33, Fx55, Fx65 whose range leaves memory raise `OutOfBoundsAccess(0x1000)` and change nothing else: no byte, no
register, no pixel (R69, R204, R205, R206, R228, R262; the whole-range check is the spec's own decision D13). -/
def Obligations.BlockOutOfRangeChangesNothing : Prop :=
  ∀ (x y n : Nibble) (s t : State),
    t = { s with run := .halted, fault := some (.outOfBoundsAccess 0x1000) } →
    (s.i.toNat + n.toNat > 0x1000 → exec (.drw x y n) s = .next t) ∧
    (s.i.toNat + 2 > 0xFFF → exec (.bcd x) s = .next t) ∧
    (s.i.toNat + x.toNat > 0xFFF → exec (.store x) s = .next t) ∧
    (s.i.toNat + x.toNat > 0xFFF → exec (.load x) s = .next t)

/-- Fx55 then, with the same x and I and whatever happened in between to anything but the block's bytes, Fx65 restores V0..Vx
to their values at the store (R205, R206, R207, R72). -/
def Obligations.StoreThenLoadRestoresRegisters : Prop :=
  ∀ (x : Nibble) (s t u : State), s.mem.wf = true → s.i.toNat + x.toNat ≤ 0xFFF → exec (.store x) s = .next t →
    u.i = s.i → (∀ a, s.i.toNat ≤ a → a ≤ s.i.toNat + x.toNat → u.mem.read a = t.mem.read a) →
    ∃ w, exec (.load x) u = .next w ∧ ∀ k : Nibble, k.toNat ≤ x.toNat → w.readReg k = s.readReg k

/-! ### Display (spec/44_display.md) -/

/-- 00E0 makes every pixel 0 and changes nothing else, VF included; a second 00E0 changes nothing more (R220). -/
def Obligations.ClearScreenClearsEveryPixel : Prop :=
  decode 0x00E0 = .cls ∧
  ∀ s : State, ∃ t, exec .cls s = .next t ∧ (∀ px py, t.pixel px py = false) ∧ t = { s with disp := t.disp } ∧
    exec .cls t = .next t

/-- Dxyn with its n bytes in memory inverts exactly the pixels that a sprite bit 1 falls on; every byte of memory, I and every
register but VF is unchanged, and so is everything else (R221, R222, R223, R226; rows wrap by the spec's own decision D11). -/
def Obligations.DrawInvertsTheCoveredPixels : Prop :=
  ∀ (x y n : Nibble) (s : State), s.i.toNat + n.toNat ≤ 0x1000 →
    ∃ t, exec (.drw x y n) s = .next t ∧
      (∀ px py, t.pixel px py = true ↔ ¬ (s.pixel px py = true ↔ s.SpriteCovers x y n px py)) ∧
      (∀ r, r ≠ 0xF → t.readReg r = s.readReg r) ∧
      (∀ a, t.mem.read a = s.mem.read a) ∧
      t = { s with disp := t.disp, v := t.v }

/-- Dxyn with its n bytes in memory leaves VF = 1 if a sprite bit 1 falls on a pixel that was set, else VF = 0; with n = 0 it
leaves VF = 0 and the display as it was (R221, R225, R227; rows wrap by the spec's own decision D11). -/
def Obligations.DrawReportsTheCollision : Prop :=
  ∀ (x y n : Nibble) (s t : State), s.i.toNat + n.toNat ≤ 0x1000 → exec (.drw x y n) s = .next t →
    ((∃ px py, s.SpriteCovers x y n px py ∧ s.pixel px py = true) → t.readReg 0xF = 1) ∧
    ((¬ ∃ px py, s.SpriteCovers x y n px py ∧ s.pixel px py = true) → t.readReg 0xF = 0) ∧
    (n = 0 → t.readReg 0xF = 0 ∧ t.disp = s.disp)

/-- Drawing the same sprite twice at the same place restores the display, and the second draw reports a collision exactly when
some sprite bit 1 had set a pixel the first time (R221, R222, R225; rows wrap by the spec's own decision D11). The place is named
by registers other than VF, which the first draw overwrites. -/
def Obligations.DrawingTwiceRestoresTheDisplay : Prop :=
  ∀ (x y n : Nibble) (s t : State), x ≠ 0xF → y ≠ 0xF → s.i.toNat + n.toNat ≤ 0x1000 → exec (.drw x y n) s = .next t →
    ∃ u, exec (.drw x y n) t = .next u ∧ u.disp = s.disp ∧
      (u.readReg 0xF = 1 ↔ ∃ px py, s.SpriteCovers x y n px py ∧ s.pixel px py = false)

/-! ### Keys and timers (spec/45_keys_timers.md, spec/60_exceptions.md) -/

/-- Ex9E skips exactly when Vx is at most 15 and that key is down, ExA1 exactly when Ex9E would not; nothing but PC changes
(R241, R242; a value above 15 by the spec's own decision D9). -/
def Obligations.KeySkipsSampleTheKey : Prop :=
  ∀ (x : Nibble) (s : State),
    decode (0xE09E#16 ||| (x.setWidth 16 <<< 8)) = .skp x ∧
    decode (0xE0A1#16 ||| (x.setWidth 16 <<< 8)) = .sknp x ∧
    (∀ k : Fin 16, (s.readReg x).toNat = k.val →
      exec (.skp x) s = .next { s with pc := if s.keysDown[k.val] = true then s.pc + 2 else s.pc } ∧
      exec (.sknp x) s = .next { s with pc := if s.keysDown[k.val] = true then s.pc else s.pc + 2 }) ∧
    (15 < (s.readReg x).toNat → exec (.skp x) s = .next s ∧ exec (.sknp x) s = .next { s with pc := s.pc + 2 })

/-- Fx0A latches x and waits, writing no register; in a waiting machine the next key press writes the key's value to the
latched register, lets the machine run again with PC where it stood, and changes nothing else; a press in any other run state
is lost (R243, R131; the mechanism is the spec's own decision D10). -/
def Obligations.KeyWaitEndsWithThePress : Prop :=
  ∀ (x k : Nibble) (s : State),
    decode (0xF00A#16 ||| (x.setWidth 16 <<< 8)) = .ldKey x ∧
    exec (.ldKey x) s = .next { s with waitX := x, run := .waitingForKey } ∧
    (s.run = .waitingForKey →
      ((s.keyPress k).readReg s.waitX).toNat = k.toNat ∧
      (∀ r, r ≠ s.waitX → (s.keyPress k).readReg r = s.readReg r) ∧
      s.keyPress k = { s with v := (s.keyPress k).v, run := .running }) ∧
    (s.run ≠ .waitingForKey → s.keyPress k = s)

/-- Fx07 writes DT to Vx and to nothing else; Fx15 writes Vx to DT, Fx18 writes Vx to ST, and nothing else changes; after Fx18
`sound_active` is 1 exactly when Vx is not 0 (R34, R244, R245, R246; the output `sound_active` is the spec's own decision D27, log
entries 9 and 12). -/
def Obligations.TimerTransfersCopyTheRegister : Prop :=
  ∀ (x : Nibble) (s : State),
    decode (0xF007#16 ||| (x.setWidth 16 <<< 8)) = .ldFromDt x ∧
    decode (0xF015#16 ||| (x.setWidth 16 <<< 8)) = .ldDt x ∧
    decode (0xF018#16 ||| (x.setWidth 16 <<< 8)) = .ldSt x ∧
    (∃ t, exec (.ldFromDt x) s = .next t ∧ t.readReg x = s.dt ∧ s.OnlyRegs t [x]) ∧
    exec (.ldDt x) s = .next { s with dt := s.readReg x } ∧
    (∃ t, exec (.ldSt x) s = .next t ∧ t = { s with st := s.readReg x } ∧
      (t.soundActive = true ↔ s.readReg x ≠ 0))

/-- `tick_timers()` counts both timers down by one with a floor at 0, in every run state, and touches nothing else (R275; in
every run state by the spec's own decision D20). -/
def Obligations.TicksCountDownToZero : Prop :=
  ∀ s : State,
    (s.tickTimers).dt.toNat = s.dt.toNat - 1 ∧ (s.tickTimers).st.toNat = s.st.toNat - 1 ∧
    s.tickTimers = { s with dt := (s.tickTimers).dt, st := (s.tickTimers).st }

/-! ### Unknown words (spec/60_exceptions.md) -/

/-- Executing `Unknown(word)` changes no state where `UNKNOWN_POLICY` is `surface_and_continue`; where it is `halt` the
machine halts with the word in FAULT and nothing else changes (R267, R268; the policy is OPEN, log entry 7). -/
def Obligations.UnknownChangesNoState : Prop :=
  ∀ (w : Word) (s : State), ∃ t, exec (.unknown w) s = .next t ∧
    (Config.unknownPolicy = .surfaceAndContinue → t = s) ∧
    (Config.unknownPolicy = .halt → t = { s with run := .halted, fault := some (.unknownInstruction w) })

/-- A fetched word that selects no row of the opcode map is surfaced as `UnknownInstruction` of that word, never as `Ok`; a
cycle returns `Ok` only for a word that selects one (R267, R121). -/
def Obligations.UnknownWordsAreSurfaced : Prop :=
  ∀ (s : State) (w : Word), s.run = .running → s.fetch = .ok w →
    (definedWord w = false → s.cycleResult = .unknownInstruction w) ∧
    (∀ e, s.cycleResult = .ok e → definedWord w = true)

/-! ### What only some instructions may do -/

/-- The display is written by 00E0 and Dxyn only, and by no host operation but `reset()`, which clears it (R229). -/
def Obligations.DisplayWrittenOnlyByClearAndDraw : Prop :=
  (∀ (i : Instr) (s t : State), exec i s = .next t → i ≠ .cls → (∀ x y n, i ≠ .drw x y n) → t.disp = s.disp) ∧
  (∀ (op : HostOp) (s : State), op ≠ .reset → (s.hostOp op).disp = s.disp) ∧
  (∀ (s : State) px py, s.hostReset.pixel px py = false)

/-- Among instructions DT is written by Fx15 only and ST by Fx18 only: no cycle counts a timer down (R124, R247). -/
def Obligations.TimersWrittenOnlyByTheirInstructions : Prop :=
  ∀ (i : Instr) (s t : State), exec i s = .next t →
    ((∀ x, i ≠ .ldDt x) → t.dt = s.dt) ∧ ((∀ x, i ≠ .ldSt x) → t.st = s.st)

/-- No instruction but 2nnn and 00EE touches the stack or SP, and none but Annn, Fx1E and Fx29 writes I (R24, R23; the stack's layout is
the spec's own decision D3). -/
def Obligations.StackAndIndexHaveTheirOwnWriters : Prop :=
  ∀ (i : Instr) (s t : State), exec i s = .next t →
    (i ≠ .ret → (∀ nnn, i ≠ .call nnn) → t.stack = s.stack ∧ t.sp = s.sp) ∧
    ((∀ nnn, i ≠ .ldI nnn) → (∀ x, i ≠ .addI x) → (∀ x, i ≠ .ldFont x) → t.i = s.i)

/-- No instruction but Fx33 and Fx55 changes a byte of memory; Fx33 changes none outside I .. I + 2 and Fx55 none outside
I .. I + x (R67, R68). -/
def Obligations.MemoryWrittenOnlyInsideTheBlock : Prop :=
  ∀ (i : Instr) (s t : State) (a : Nat), exec i s = .next t →
    ((∀ x, i ≠ .bcd x) → (∀ x, i ≠ .store x) → t.mem.read a = s.mem.read a) ∧
    (∀ x, i = .bcd x → ¬ (s.i.toNat ≤ a ∧ a < s.i.toNat + 3) → t.mem.read a = s.mem.read a) ∧
    (∀ x, i = .store x → ¬ (s.i.toNat ≤ a ∧ a ≤ s.i.toNat + x.toNat) → t.mem.read a = s.mem.read a)

/-- PC is moved by the jumps, the call, the return and the skips only, and a skip moves it by 0 or 2; every other instruction
leaves the advanced PC alone (R22, R123, R150; PC is never reduced modulo 4096 by the spec's own decision D1). -/
def Obligations.OnlyControlTransfersMovePC : Prop :=
  ∀ (i : Instr) (s t : State), exec i s = .next t → t.pc ≠ s.pc →
    i = .ret ∨ (∃ nnn, i = .jp nnn ∨ i = .call nnn ∨ i = .jpV0 nnn) ∨
    (t.pc = s.pc + 2 ∧ ((∃ x kk, i = .seImm x kk ∨ i = .sneImm x kk) ∨ (∃ x y, i = .seReg x y ∨ i = .sneReg x y) ∨
      (∃ x, i = .skp x ∨ i = .sknp x)))

/-- Only the instructions of the taxonomy raise a condition, each only when its own check fails, and a raise is precise: it
changes RUN and FAULT and nothing else (R260, R262, R263; precise halting is the spec's own decision D14, the range check before
any write D13). That `Unknown` halts only where `UNKNOWN_POLICY` is `halt` is R268, the spec's own decision D7; the parameter is
OPEN, an opaque constant of Config (DESIGN CHOICE, log entry 7). -/
def Obligations.OnlyTheTaxonomyHalts : Prop :=
  ∀ (i : Instr) (s t : State), exec i s = .next t → s.run ≠ .halted → t.run = .halted →
    t = { s with run := .halted, fault := t.fault } ∧
    ((i = .ret ∧ s.sp.val = 0) ∨ ((∃ nnn, i = .call nnn) ∧ s.sp.val = 16) ∨
     (∃ x y n, i = .drw x y n ∧ s.i.toNat + n.toNat > 0x1000) ∨
     (∃ x, i = .bcd x ∧ s.i.toNat + 2 > 0xFFF) ∨
     (∃ x, (i = .store x ∨ i = .load x) ∧ s.i.toNat + x.toNat > 0xFFF) ∨
     ((∃ w, i = .unknown w) ∧ Config.unknownPolicy = .halt))

/-- VF is written as a side effect only by 8xy4, 8xy5, 8xy6, 8xy7, 8xyE, Dxyn and, where `FX1E_VF_ON_OVERFLOW` is true, Fx1E,
and then with 0 or 1 (unless the instruction raised a condition); every other instruction changes VF only as its destination (R21, R184). -/
def Obligations.FlagWrittenOnlyByItsInstructions : Prop :=
  ∀ (i : Instr) (s t : State), exec i s = .next t → t.readReg 0xF ≠ s.readReg 0xF →
    ((t.readReg 0xF = 0 ∨ t.readReg 0xF = 1) ∧
      ((∃ x y, i = .addReg x y ∨ i = .subReg x y ∨ i = .shr x y ∨ i = .subnReg x y ∨ i = .shl x y) ∨
       (∃ x y n, i = .drw x y n) ∨ ((∃ x, i = .addI x) ∧ Config.fx1eVfOnOverflow = true))) ∨
    ((∃ kk, i = .ldImm 0xF kk ∨ i = .addImm 0xF kk ∨ i = .rnd 0xF kk) ∨
     (∃ y, i = .ldReg 0xF y ∨ i = .orReg 0xF y ∨ i = .andReg 0xF y ∨ i = .xorReg 0xF y) ∨
     i = .ldFromDt 0xF ∨ i = .load 0xF)

/-! ### Invariants -/

/-- The invariant holds at reset (R37; the memory it is about is the model's reset memory, log entry 3, which lists nothing). -/
def Obligations.ResetStateHasTheInvariant : Prop :=
  State.reset.Inv

/-- Every cycle keeps the invariant: canonical memory, PC within 0x10FE, every return address held within 0x1000, FAULT
recorded exactly while halted (R22, R24, R31, R62; the spec's own decisions: PC's width D1, the stack's layout D3, the record D14;
the canonical form of memory is the model's). -/
def Obligations.CycleKeepsTheInvariant : Prop :=
  ∀ s t : State, s.Inv → step s = .next t → t.Inv

/-- Every host operation between cycles keeps the invariant (R35, R75, R131, R275, R300, R303; the operations in the form
of the spec's own decisions D10, D16, D20, D23, D24). -/
def Obligations.HostOperationsKeepTheInvariant : Prop :=
  ∀ (op : HostOp) (s : State), s.Inv → (s.hostOp op).Inv

/-! ### What an instruction cannot learn -/

/-- `keys_down` is sampled by Ex9E and ExA1 only: any other instruction does the same whatever keys are down (R33, R240; the
level is held in the state by the model's choice, log entry 4). -/
def Obligations.KeysAreSampledOnlyByKeySkips : Prop :=
  ∀ (i : Instr) (s t : State) (keys : BitVec 16), (∀ x, i ≠ .skp x) → (∀ x, i ≠ .sknp x) → exec i s = .next t →
    exec i { s with keysDown := keys } = .next { t with keysDown := keys }

/-- `rand_byte` is sampled by Cxkk only: any other instruction does the same whatever bytes are supplied (R33,
R185; the free input is the spec's own decision D17, its form log entry 5). -/
def Obligations.RandomByteIsSampledOnlyByRnd : Prop :=
  ∀ (i : Instr) (s t : State) (bytes : List Byte) (n : Nat), (∀ x kk, i ≠ .rnd x kk) → exec i s = .next t →
    exec i { s with randIn := bytes, draws := n } = .next { t with randIn := bytes, draws := n }

/-- Stack entries at or above SP are dead: two states that differ in them alone do the same under every instruction, and differ
afterwards in dead entries alone (R24; the stack's layout is the spec's own decision D3). -/
def Obligations.DeadStackEntriesAreUnreadable : Prop :=
  ∀ (i : Instr) (s t : State) (stack' : Vector Word 16),
    (∀ k : Fin 16, k.val < s.sp.val → stack'[k.val] = s.stack[k.val]) → exec i s = .next t →
    ∃ u, exec i { s with stack := stack' } = .next u ∧ u = { t with stack := u.stack } ∧
      ∀ k : Fin 16, k.val < t.sp.val → u.stack[k.val] = t.stack[k.val]

/-! ### Reset and the host's access (spec/70_reset_and_hazards.md, spec/20_memory.md) -/

/-- `reset()` in any state: PC = 0x200, SP = 0, RUN = Running, FAULT none, every pixel 0, V0..VF, I, DT, ST all 0, and every byte
of memory, the stack's entries and WAIT_X unchanged; the model's reset state is one that `reset()` leaves as it is (R37, R300; the
zeros and the untouched memory are the spec's own decision D16; what STACK and WAIT_X hold in the reset state is the model's
choice, log entries 1 and 2, and nothing is said of it here). -/
def Obligations.ResetRestoresTheInitialValues : Prop :=
  State.reset.hostReset = State.reset ∧
  ∀ s : State,
    s.hostReset.pc = 0x200 ∧ s.hostReset.sp.val = 0 ∧ s.hostReset.run = .running ∧ s.hostReset.fault = none ∧
    (∀ px py, s.hostReset.pixel px py = false) ∧ (∀ r, s.hostReset.readReg r = 0) ∧ s.hostReset.i = 0 ∧
    s.hostReset.dt = 0 ∧ s.hostReset.st = 0 ∧ (∀ a, s.hostReset.mem.read a = s.mem.read a) ∧
    s.hostReset.stack = s.stack ∧ s.hostReset.waitX = s.waitX

/-- `load_image` of at most 3584 bytes puts byte k at 0x200 + k and changes no other byte and nothing else; a longer image is
refused with its length (R303; the refusal's form is the spec's own decision D23). -/
def Obligations.LoadImageCopiesTheImage : Prop :=
  ∀ (bytes : List Byte) (s : State), s.mem.wf = true →
    (bytes.length ≤ 3584 → ∃ t, s.loadImage bytes = .ok t ∧
      (∀ k, k < bytes.length → some (t.mem.read (0x200 + k)) = bytes[k]?) ∧
      (∀ a, ¬ (0x200 ≤ a ∧ a < 0x200 + bytes.length) → t.mem.read a = s.mem.read a) ∧
      t.mem.wf = true ∧ t = { s with mem := t.mem }) ∧
    (bytes.length > 3584 → s.loadImage bytes = .error (.imageTooLarge bytes.length))

/-- A byte the host writes inside memory is what it and the machine then read there, and no other byte changes; an address above
0xFFF is refused, and a refused call changes nothing (R75; the refusal is the spec's own decision D24). -/
def Obligations.HostByteAccessIsExact : Prop :=
  ∀ (addr : Nat) (b : Byte) (s : State), s.mem.wf = true →
    (addr ≤ 0xFFF → ∃ t, s.writeByte addr b = .ok t ∧ t.readByte addr = .ok b ∧
      (∀ a, a ≠ addr → t.mem.read a = s.mem.read a) ∧ t.mem.wf = true ∧ t = { s with mem := t.mem }) ∧
    (0xFFF < addr → s.readByte addr = .error (.outOfBoundsAccess addr) ∧
      s.writeByte addr b = .error (.outOfBoundsAccess addr) ∧ s.hostOp (.writeByte addr b) = s)

/-- A word the host writes at PC is the one the next cycle executes: nothing stands between a store and the fetch (R64, R72;
R74 is the spec's own decision D26). -/
def Obligations.WrittenWordIsTheOneExecuted : Prop :=
  ∀ (s : State) (w : Word), s.mem.wf = true → s.run = .running → s.pc.toNat ≤ 0xFFE →
    ∃ t, t = (s.hostOp (.writeByte s.pc.toNat (w.extractLsb' 8 8))).hostOp (.writeByte (s.pc.toNat + 1) (w.extractLsb' 0 8)) ∧
      step t = exec (decode w) { t with pc := s.pc + 2 }
end

