-- ==== Sys2Proof/Laws/State.lean ====
section
/-! SUPPORT. Laws/State.lean: one lemma per field per named update of the state, each true by definition, so that no later proof unfolds a record update. -/

namespace Sys2Proof.Machine

variable (s : State)

@[simp] theorem State.writeReg_pc (x : Nibble) (b : Byte) : (s.writeReg x b).pc = s.pc := rfl
@[simp] theorem State.writeReg_i (x : Nibble) (b : Byte) : (s.writeReg x b).i = s.i := rfl
@[simp] theorem State.writeReg_stack (x : Nibble) (b : Byte) : (s.writeReg x b).stack = s.stack := rfl
@[simp] theorem State.writeReg_sp (x : Nibble) (b : Byte) : (s.writeReg x b).sp = s.sp := rfl
@[simp] theorem State.writeReg_dt (x : Nibble) (b : Byte) : (s.writeReg x b).dt = s.dt := rfl
@[simp] theorem State.writeReg_st (x : Nibble) (b : Byte) : (s.writeReg x b).st = s.st := rfl
@[simp] theorem State.writeReg_mem (x : Nibble) (b : Byte) : (s.writeReg x b).mem = s.mem := rfl
@[simp] theorem State.writeReg_disp (x : Nibble) (b : Byte) : (s.writeReg x b).disp = s.disp := rfl
@[simp] theorem State.writeReg_run (x : Nibble) (b : Byte) : (s.writeReg x b).run = s.run := rfl
@[simp] theorem State.writeReg_waitX (x : Nibble) (b : Byte) : (s.writeReg x b).waitX = s.waitX := rfl
@[simp] theorem State.writeReg_fault (x : Nibble) (b : Byte) : (s.writeReg x b).fault = s.fault := rfl
@[simp] theorem State.writeReg_keysDown (x : Nibble) (b : Byte) : (s.writeReg x b).keysDown = s.keysDown := rfl
@[simp] theorem State.writeReg_randIn (x : Nibble) (b : Byte) : (s.writeReg x b).randIn = s.randIn := rfl
@[simp] theorem State.writeReg_draws (x : Nibble) (b : Byte) : (s.writeReg x b).draws = s.draws := rfl

@[simp] theorem State.writeRegs_pc (bs : List Byte) : (s.writeRegs bs).pc = s.pc := rfl
@[simp] theorem State.writeRegs_i (bs : List Byte) : (s.writeRegs bs).i = s.i := rfl
@[simp] theorem State.writeRegs_stack (bs : List Byte) : (s.writeRegs bs).stack = s.stack := rfl
@[simp] theorem State.writeRegs_sp (bs : List Byte) : (s.writeRegs bs).sp = s.sp := rfl
@[simp] theorem State.writeRegs_dt (bs : List Byte) : (s.writeRegs bs).dt = s.dt := rfl
@[simp] theorem State.writeRegs_st (bs : List Byte) : (s.writeRegs bs).st = s.st := rfl
@[simp] theorem State.writeRegs_mem (bs : List Byte) : (s.writeRegs bs).mem = s.mem := rfl
@[simp] theorem State.writeRegs_disp (bs : List Byte) : (s.writeRegs bs).disp = s.disp := rfl
@[simp] theorem State.writeRegs_run (bs : List Byte) : (s.writeRegs bs).run = s.run := rfl
@[simp] theorem State.writeRegs_waitX (bs : List Byte) : (s.writeRegs bs).waitX = s.waitX := rfl
@[simp] theorem State.writeRegs_fault (bs : List Byte) : (s.writeRegs bs).fault = s.fault := rfl
@[simp] theorem State.writeRegs_keysDown (bs : List Byte) : (s.writeRegs bs).keysDown = s.keysDown := rfl
@[simp] theorem State.writeRegs_randIn (bs : List Byte) : (s.writeRegs bs).randIn = s.randIn := rfl
@[simp] theorem State.writeRegs_draws (bs : List Byte) : (s.writeRegs bs).draws = s.draws := rfl

@[simp] theorem State.setPc_v (a : Word) : (s.setPc a).v = s.v := rfl
@[simp] theorem State.setPc_pc (a : Word) : (s.setPc a).pc = a := rfl
@[simp] theorem State.setPc_i (a : Word) : (s.setPc a).i = s.i := rfl
@[simp] theorem State.setPc_stack (a : Word) : (s.setPc a).stack = s.stack := rfl
@[simp] theorem State.setPc_sp (a : Word) : (s.setPc a).sp = s.sp := rfl
@[simp] theorem State.setPc_dt (a : Word) : (s.setPc a).dt = s.dt := rfl
@[simp] theorem State.setPc_st (a : Word) : (s.setPc a).st = s.st := rfl
@[simp] theorem State.setPc_mem (a : Word) : (s.setPc a).mem = s.mem := rfl
@[simp] theorem State.setPc_disp (a : Word) : (s.setPc a).disp = s.disp := rfl
@[simp] theorem State.setPc_run (a : Word) : (s.setPc a).run = s.run := rfl
@[simp] theorem State.setPc_waitX (a : Word) : (s.setPc a).waitX = s.waitX := rfl
@[simp] theorem State.setPc_fault (a : Word) : (s.setPc a).fault = s.fault := rfl
@[simp] theorem State.setPc_keysDown (a : Word) : (s.setPc a).keysDown = s.keysDown := rfl
@[simp] theorem State.setPc_randIn (a : Word) : (s.setPc a).randIn = s.randIn := rfl
@[simp] theorem State.setPc_draws (a : Word) : (s.setPc a).draws = s.draws := rfl

@[simp] theorem State.setI_v (a : Addr) : (s.setI a).v = s.v := rfl
@[simp] theorem State.setI_pc (a : Addr) : (s.setI a).pc = s.pc := rfl
@[simp] theorem State.setI_i (a : Addr) : (s.setI a).i = a := rfl
@[simp] theorem State.setI_stack (a : Addr) : (s.setI a).stack = s.stack := rfl
@[simp] theorem State.setI_sp (a : Addr) : (s.setI a).sp = s.sp := rfl
@[simp] theorem State.setI_dt (a : Addr) : (s.setI a).dt = s.dt := rfl
@[simp] theorem State.setI_st (a : Addr) : (s.setI a).st = s.st := rfl
@[simp] theorem State.setI_mem (a : Addr) : (s.setI a).mem = s.mem := rfl
@[simp] theorem State.setI_disp (a : Addr) : (s.setI a).disp = s.disp := rfl
@[simp] theorem State.setI_run (a : Addr) : (s.setI a).run = s.run := rfl
@[simp] theorem State.setI_waitX (a : Addr) : (s.setI a).waitX = s.waitX := rfl
@[simp] theorem State.setI_fault (a : Addr) : (s.setI a).fault = s.fault := rfl
@[simp] theorem State.setI_keysDown (a : Addr) : (s.setI a).keysDown = s.keysDown := rfl
@[simp] theorem State.setI_randIn (a : Addr) : (s.setI a).randIn = s.randIn := rfl
@[simp] theorem State.setI_draws (a : Addr) : (s.setI a).draws = s.draws := rfl

@[simp] theorem State.raise_v (f : Fault) : (s.raise f).v = s.v := rfl
@[simp] theorem State.raise_pc (f : Fault) : (s.raise f).pc = s.pc := rfl
@[simp] theorem State.raise_i (f : Fault) : (s.raise f).i = s.i := rfl
@[simp] theorem State.raise_stack (f : Fault) : (s.raise f).stack = s.stack := rfl
@[simp] theorem State.raise_sp (f : Fault) : (s.raise f).sp = s.sp := rfl
@[simp] theorem State.raise_dt (f : Fault) : (s.raise f).dt = s.dt := rfl
@[simp] theorem State.raise_st (f : Fault) : (s.raise f).st = s.st := rfl
@[simp] theorem State.raise_mem (f : Fault) : (s.raise f).mem = s.mem := rfl
@[simp] theorem State.raise_disp (f : Fault) : (s.raise f).disp = s.disp := rfl
@[simp] theorem State.raise_run (f : Fault) : (s.raise f).run = .halted := rfl
@[simp] theorem State.raise_waitX (f : Fault) : (s.raise f).waitX = s.waitX := rfl
@[simp] theorem State.raise_fault (f : Fault) : (s.raise f).fault = some f := rfl
@[simp] theorem State.raise_keysDown (f : Fault) : (s.raise f).keysDown = s.keysDown := rfl
@[simp] theorem State.raise_randIn (f : Fault) : (s.raise f).randIn = s.randIn := rfl
@[simp] theorem State.raise_draws (f : Fault) : (s.raise f).draws = s.draws := rfl

@[simp] theorem State.setFlag_pc (b : Bool) : (s.setFlag b).pc = s.pc := rfl
@[simp] theorem State.setFlag_i (b : Bool) : (s.setFlag b).i = s.i := rfl
@[simp] theorem State.setFlag_stack (b : Bool) : (s.setFlag b).stack = s.stack := rfl
@[simp] theorem State.setFlag_sp (b : Bool) : (s.setFlag b).sp = s.sp := rfl
@[simp] theorem State.setFlag_dt (b : Bool) : (s.setFlag b).dt = s.dt := rfl
@[simp] theorem State.setFlag_st (b : Bool) : (s.setFlag b).st = s.st := rfl
@[simp] theorem State.setFlag_mem (b : Bool) : (s.setFlag b).mem = s.mem := rfl
@[simp] theorem State.setFlag_disp (b : Bool) : (s.setFlag b).disp = s.disp := rfl
@[simp] theorem State.setFlag_run (b : Bool) : (s.setFlag b).run = s.run := rfl
@[simp] theorem State.setFlag_waitX (b : Bool) : (s.setFlag b).waitX = s.waitX := rfl
@[simp] theorem State.setFlag_fault (b : Bool) : (s.setFlag b).fault = s.fault := rfl
@[simp] theorem State.setFlag_keysDown (b : Bool) : (s.setFlag b).keysDown = s.keysDown := rfl
@[simp] theorem State.setFlag_randIn (b : Bool) : (s.setFlag b).randIn = s.randIn := rfl
@[simp] theorem State.setFlag_draws (b : Bool) : (s.setFlag b).draws = s.draws := rfl

@[simp] theorem State.writeResultFlag_pc (x : Nibble) (r : Byte) (b : Bool) : (s.writeResultFlag x r b).pc = s.pc := rfl
@[simp] theorem State.writeResultFlag_i (x : Nibble) (r : Byte) (b : Bool) : (s.writeResultFlag x r b).i = s.i := rfl
@[simp] theorem State.writeResultFlag_stack (x : Nibble) (r : Byte) (b : Bool) : (s.writeResultFlag x r b).stack = s.stack := rfl
@[simp] theorem State.writeResultFlag_sp (x : Nibble) (r : Byte) (b : Bool) : (s.writeResultFlag x r b).sp = s.sp := rfl
@[simp] theorem State.writeResultFlag_dt (x : Nibble) (r : Byte) (b : Bool) : (s.writeResultFlag x r b).dt = s.dt := rfl
@[simp] theorem State.writeResultFlag_st (x : Nibble) (r : Byte) (b : Bool) : (s.writeResultFlag x r b).st = s.st := rfl
@[simp] theorem State.writeResultFlag_mem (x : Nibble) (r : Byte) (b : Bool) : (s.writeResultFlag x r b).mem = s.mem := rfl
@[simp] theorem State.writeResultFlag_disp (x : Nibble) (r : Byte) (b : Bool) : (s.writeResultFlag x r b).disp = s.disp := rfl
@[simp] theorem State.writeResultFlag_run (x : Nibble) (r : Byte) (b : Bool) : (s.writeResultFlag x r b).run = s.run := rfl
@[simp] theorem State.writeResultFlag_waitX (x : Nibble) (r : Byte) (b : Bool) : (s.writeResultFlag x r b).waitX = s.waitX := rfl
@[simp] theorem State.writeResultFlag_fault (x : Nibble) (r : Byte) (b : Bool) : (s.writeResultFlag x r b).fault = s.fault := rfl
@[simp] theorem State.writeResultFlag_keysDown (x : Nibble) (r : Byte) (b : Bool) : (s.writeResultFlag x r b).keysDown = s.keysDown := rfl
@[simp] theorem State.writeResultFlag_randIn (x : Nibble) (r : Byte) (b : Bool) : (s.writeResultFlag x r b).randIn = s.randIn := rfl
@[simp] theorem State.writeResultFlag_draws (x : Nibble) (r : Byte) (b : Bool) : (s.writeResultFlag x r b).draws = s.draws := rfl

@[simp] theorem State.consumeRand_v : (s.consumeRand).v = s.v := rfl
@[simp] theorem State.consumeRand_pc : (s.consumeRand).pc = s.pc := rfl
@[simp] theorem State.consumeRand_i : (s.consumeRand).i = s.i := rfl
@[simp] theorem State.consumeRand_stack : (s.consumeRand).stack = s.stack := rfl
@[simp] theorem State.consumeRand_sp : (s.consumeRand).sp = s.sp := rfl
@[simp] theorem State.consumeRand_dt : (s.consumeRand).dt = s.dt := rfl
@[simp] theorem State.consumeRand_st : (s.consumeRand).st = s.st := rfl
@[simp] theorem State.consumeRand_mem : (s.consumeRand).mem = s.mem := rfl
@[simp] theorem State.consumeRand_disp : (s.consumeRand).disp = s.disp := rfl
@[simp] theorem State.consumeRand_run : (s.consumeRand).run = s.run := rfl
@[simp] theorem State.consumeRand_waitX : (s.consumeRand).waitX = s.waitX := rfl
@[simp] theorem State.consumeRand_fault : (s.consumeRand).fault = s.fault := rfl
@[simp] theorem State.consumeRand_keysDown : (s.consumeRand).keysDown = s.keysDown := rfl
@[simp] theorem State.consumeRand_randIn : (s.consumeRand).randIn = s.randIn.tail := rfl
@[simp] theorem State.consumeRand_draws : (s.consumeRand).draws = s.draws + 1 := rfl

@[simp] theorem State.tickTimers_v : (s.tickTimers).v = s.v := rfl
@[simp] theorem State.tickTimers_pc : (s.tickTimers).pc = s.pc := rfl
@[simp] theorem State.tickTimers_i : (s.tickTimers).i = s.i := rfl
@[simp] theorem State.tickTimers_stack : (s.tickTimers).stack = s.stack := rfl
@[simp] theorem State.tickTimers_sp : (s.tickTimers).sp = s.sp := rfl
@[simp] theorem State.tickTimers_dt : (s.tickTimers).dt = countDown s.dt := rfl
@[simp] theorem State.tickTimers_st : (s.tickTimers).st = countDown s.st := rfl
@[simp] theorem State.tickTimers_mem : (s.tickTimers).mem = s.mem := rfl
@[simp] theorem State.tickTimers_disp : (s.tickTimers).disp = s.disp := rfl
@[simp] theorem State.tickTimers_run : (s.tickTimers).run = s.run := rfl
@[simp] theorem State.tickTimers_waitX : (s.tickTimers).waitX = s.waitX := rfl
@[simp] theorem State.tickTimers_fault : (s.tickTimers).fault = s.fault := rfl
@[simp] theorem State.tickTimers_keysDown : (s.tickTimers).keysDown = s.keysDown := rfl
@[simp] theorem State.tickTimers_randIn : (s.tickTimers).randIn = s.randIn := rfl
@[simp] theorem State.tickTimers_draws : (s.tickTimers).draws = s.draws := rfl

@[simp] theorem State.setKeysDown_v (k : BitVec 16) : (s.setKeysDown k).v = s.v := rfl
@[simp] theorem State.setKeysDown_pc (k : BitVec 16) : (s.setKeysDown k).pc = s.pc := rfl
@[simp] theorem State.setKeysDown_i (k : BitVec 16) : (s.setKeysDown k).i = s.i := rfl
@[simp] theorem State.setKeysDown_stack (k : BitVec 16) : (s.setKeysDown k).stack = s.stack := rfl
@[simp] theorem State.setKeysDown_sp (k : BitVec 16) : (s.setKeysDown k).sp = s.sp := rfl
@[simp] theorem State.setKeysDown_dt (k : BitVec 16) : (s.setKeysDown k).dt = s.dt := rfl
@[simp] theorem State.setKeysDown_st (k : BitVec 16) : (s.setKeysDown k).st = s.st := rfl
@[simp] theorem State.setKeysDown_mem (k : BitVec 16) : (s.setKeysDown k).mem = s.mem := rfl
@[simp] theorem State.setKeysDown_disp (k : BitVec 16) : (s.setKeysDown k).disp = s.disp := rfl
@[simp] theorem State.setKeysDown_run (k : BitVec 16) : (s.setKeysDown k).run = s.run := rfl
@[simp] theorem State.setKeysDown_waitX (k : BitVec 16) : (s.setKeysDown k).waitX = s.waitX := rfl
@[simp] theorem State.setKeysDown_fault (k : BitVec 16) : (s.setKeysDown k).fault = s.fault := rfl
@[simp] theorem State.setKeysDown_keysDown (k : BitVec 16) : (s.setKeysDown k).keysDown = k := rfl
@[simp] theorem State.setKeysDown_randIn (k : BitVec 16) : (s.setKeysDown k).randIn = s.randIn := rfl
@[simp] theorem State.setKeysDown_draws (k : BitVec 16) : (s.setKeysDown k).draws = s.draws := rfl

@[simp] theorem State.supplyRand_v (b : Byte) : (s.supplyRand b).v = s.v := rfl
@[simp] theorem State.supplyRand_pc (b : Byte) : (s.supplyRand b).pc = s.pc := rfl
@[simp] theorem State.supplyRand_i (b : Byte) : (s.supplyRand b).i = s.i := rfl
@[simp] theorem State.supplyRand_stack (b : Byte) : (s.supplyRand b).stack = s.stack := rfl
@[simp] theorem State.supplyRand_sp (b : Byte) : (s.supplyRand b).sp = s.sp := rfl
@[simp] theorem State.supplyRand_dt (b : Byte) : (s.supplyRand b).dt = s.dt := rfl
@[simp] theorem State.supplyRand_st (b : Byte) : (s.supplyRand b).st = s.st := rfl
@[simp] theorem State.supplyRand_mem (b : Byte) : (s.supplyRand b).mem = s.mem := rfl
@[simp] theorem State.supplyRand_disp (b : Byte) : (s.supplyRand b).disp = s.disp := rfl
@[simp] theorem State.supplyRand_run (b : Byte) : (s.supplyRand b).run = s.run := rfl
@[simp] theorem State.supplyRand_waitX (b : Byte) : (s.supplyRand b).waitX = s.waitX := rfl
@[simp] theorem State.supplyRand_fault (b : Byte) : (s.supplyRand b).fault = s.fault := rfl
@[simp] theorem State.supplyRand_keysDown (b : Byte) : (s.supplyRand b).keysDown = s.keysDown := rfl
@[simp] theorem State.supplyRand_randIn (b : Byte) : (s.supplyRand b).randIn = s.randIn ++ [b] := rfl
@[simp] theorem State.supplyRand_draws (b : Byte) : (s.supplyRand b).draws = s.draws := rfl

/-! A skip moves PC and nothing else (spec/41_control_flow.md R150). -/

@[simp] theorem State.skipIf_v (c : Bool) : (s.skipIf c).v = s.v := by cases c <;> rfl
@[simp] theorem State.skipIf_pc (c : Bool) : (s.skipIf c).pc = if c then s.pc + 2 else s.pc := by cases c <;> rfl
@[simp] theorem State.skipIf_i (c : Bool) : (s.skipIf c).i = s.i := by cases c <;> rfl
@[simp] theorem State.skipIf_stack (c : Bool) : (s.skipIf c).stack = s.stack := by cases c <;> rfl
@[simp] theorem State.skipIf_sp (c : Bool) : (s.skipIf c).sp = s.sp := by cases c <;> rfl
@[simp] theorem State.skipIf_dt (c : Bool) : (s.skipIf c).dt = s.dt := by cases c <;> rfl
@[simp] theorem State.skipIf_st (c : Bool) : (s.skipIf c).st = s.st := by cases c <;> rfl
@[simp] theorem State.skipIf_mem (c : Bool) : (s.skipIf c).mem = s.mem := by cases c <;> rfl
@[simp] theorem State.skipIf_disp (c : Bool) : (s.skipIf c).disp = s.disp := by cases c <;> rfl
@[simp] theorem State.skipIf_run (c : Bool) : (s.skipIf c).run = s.run := by cases c <;> rfl
@[simp] theorem State.skipIf_waitX (c : Bool) : (s.skipIf c).waitX = s.waitX := by cases c <;> rfl
@[simp] theorem State.skipIf_fault (c : Bool) : (s.skipIf c).fault = s.fault := by cases c <;> rfl
@[simp] theorem State.skipIf_keysDown (c : Bool) : (s.skipIf c).keysDown = s.keysDown := by cases c <;> rfl
@[simp] theorem State.skipIf_randIn (c : Bool) : (s.skipIf c).randIn = s.randIn := by cases c <;> rfl
@[simp] theorem State.skipIf_draws (c : Bool) : (s.skipIf c).draws = s.draws := by cases c <;> rfl

/-! Reading a register sees only V. -/

@[simp] theorem State.readReg_setPc (a : Word) (r : Nibble) : (s.setPc a).readReg r = s.readReg r := rfl
@[simp] theorem State.readReg_setI (a : Addr) (r : Nibble) : (s.setI a).readReg r = s.readReg r := rfl
@[simp] theorem State.readReg_raise (f : Fault) (r : Nibble) : (s.raise f).readReg r = s.readReg r := rfl
@[simp] theorem State.readReg_consumeRand (r : Nibble) : (s.consumeRand).readReg r = s.readReg r := rfl
@[simp] theorem State.readReg_tickTimers (r : Nibble) : (s.tickTimers).readReg r = s.readReg r := rfl
@[simp] theorem State.readReg_setKeysDown (k : BitVec 16) (r : Nibble) : (s.setKeysDown k).readReg r = s.readReg r := rfl
@[simp] theorem State.readReg_supplyRand (b : Byte) (r : Nibble) : (s.supplyRand b).readReg r = s.readReg r := rfl
@[simp] theorem State.readReg_skipIf (c : Bool) (r : Nibble) : (s.skipIf c).readReg r = s.readReg r := by cases c <;> rfl

end Sys2Proof.Machine
end

