-- ==== Sys2Proof/Laws/Cycle.lean ====
section
/-! SUPPORT. Laws/Cycle.lean: everything the shared operations of the stack, the range check, the fetch and the start of a cycle can do, said once each (spec/41_control_flow.md R151, R153; spec/20_memory.md R69; spec/40_cycle.md R120, R122). -/

namespace Sys2Proof.Machine

variable (s : State)

/-- A push succeeds exactly below depth 16 (R153). -/
theorem State.push_of_lt (a : Word) (h : s.sp.val < 16) :
    s.push a = some { s with stack := s.stack.set s.sp.val a h, sp := ⟨s.sp.val + 1, by omega⟩ } := by
  simp [State.push, h]

theorem State.push_of_full (a : Word) (h : s.sp.val = 16) : s.push a = none := by
  simp [State.push, h]

/-- A pop succeeds exactly above depth 0 (R151). -/
theorem State.pop_of_pos (h : 0 < s.sp.val) :
    s.pop = some (s.stack[s.sp.val - 1]'(by omega), { s with sp := ⟨s.sp.val - 1, by omega⟩ }) := by
  simp [State.pop, h]

theorem State.pop_of_empty (h : s.sp.val = 0) : s.pop = none := by
  simp [State.pop, h]

/-- The range check (R69): the effect when I + len stays in memory, the condition otherwise. -/
theorem State.whenInRange_eq (len : Nat) (t : State) :
    s.whenInRange len t = if s.i.toNat + len ≤ 4096 then t else s.raise (.outOfBoundsAccess 0x1000) := rfl

/-- A fetch succeeds exactly when PC ≤ 0xFFE, and then gives the two bytes, high byte first (R122, R64). -/
theorem State.fetch_ok_iff (w : Word) :
    s.fetch = .ok w ↔
      s.pc.toNat ≤ 0xFFE ∧ w = wordOfBytes (s.mem.read s.pc.toNat) (s.mem.read (s.pc.toNat + 1)) := by
  simp only [State.fetch, State.memRead]
  grind

/-- A fetch fails exactly when PC > 0xFFE, with the lower of its two addresses that is out of range (R122). -/
theorem State.fetch_error_iff (f : Fault) :
    s.fetch = .error f ↔
      0xFFE < s.pc.toNat ∧ f = .outOfBoundsAccess (if s.pc = 0xFFF then 0x1000 else s.pc) := by
  simp only [State.fetch, State.memRead]
  by_cases h1 : s.pc.toNat < 4096
  · by_cases h2 : s.pc.toNat + 1 < 4096
    · simp [h1, h2]; omega
    · have hpc : s.pc.toNat = 0xFFF := by omega
      have hpc' : s.pc = 0xFFF := BitVec.eq_of_toNat_eq (by simpa using hpc)
      simp [hpc', eq_comm]
  · have hne : s.pc ≠ 0xFFF := by intro h; simp [h] at h1
    rw [if_neg hne]
    simp [h1, eq_comm]
    omega

/-- Everything the start of a cycle can do (R120, R126, R127, R122). -/
theorem State.beginCycle_cases :
    (s.run = .waitingForKey ∧ s.beginCycle = .error (.next s)) ∨
    (s.run = .halted ∧ ∃ f, s.fault = some f ∧ s.beginCycle = .error (.fault f)) ∨
    (s.run = .halted ∧ s.fault = none ∧ s.beginCycle = .error (.next s)) ∨
    (s.run = .running ∧ ∃ f, s.fetch = .error f ∧ s.beginCycle = .error (.next (s.raise f))) ∨
    (s.run = .running ∧ ∃ w, s.fetch = .ok w ∧ s.beginCycle = .ok (decode w, s.setPc (s.pc + 2))) := by
  unfold State.beginCycle
  cases hr : s.run <;> cases hf : s.fault <;> cases hw : s.fetch <;> simp

/-- Everything a cycle can do: it waits, stays halted, halts on a fetch, or executes the fetched instruction with PC
advanced (R120). -/
theorem step_cases :
    (s.run = .waitingForKey ∧ step s = .next s) ∨
    (s.run = .halted ∧ ∃ f, s.fault = some f ∧ step s = .fault f) ∨
    (s.run = .halted ∧ s.fault = none ∧ step s = .next s) ∨
    (s.run = .running ∧ ∃ f, s.fetch = .error f ∧ step s = .next (s.raise f)) ∨
    (s.run = .running ∧ ∃ w, s.fetch = .ok w ∧ step s = exec (decode w) (s.setPc (s.pc + 2))) := by
  rcases s.beginCycle_cases with ⟨h, hb⟩ | ⟨h, f, hf, hb⟩ | ⟨h, hf, hb⟩ | ⟨h, f, hf, hb⟩ | ⟨h, w, hw, hb⟩
  · exact .inl ⟨h, by simp [step, hb]⟩
  · exact .inr (.inl ⟨h, f, hf, by simp [step, hb]⟩)
  · exact .inr (.inr (.inl ⟨h, hf, by simp [step, hb]⟩))
  · exact .inr (.inr (.inr (.inl ⟨h, f, hf, by simp [step, hb]⟩)))
  · exact .inr (.inr (.inr (.inr ⟨h, w, hw, by simp [step, hb]⟩)))

end Sys2Proof.Machine
end

