-- ==== Sys2Proof/Laws/Decode.lean ====
section
/-! SUPPORT. Laws/Decode.lean: the fields of a word written in one of the formats of spec/30_encoding.md R92, and the masks of the opcode map on it. Each lemma holds for any fixed bits, so one lemma serves every pattern of the format. -/

namespace Sys2Proof

/-- The bits of the three masks of the opcode map (R95). -/
theorem getElem_F000 : ∀ (i : Nat) (hi : i < 16), (0xF000#16)[i] = decide (12 ≤ i) := by
  decide

theorem getElem_F00F : ∀ (i : Nat) (hi : i < 16), (0xF00F#16)[i] = decide (12 ≤ i ∨ i < 4) := by
  decide

theorem getElem_F0FF : ∀ (i : Nat) (hi : i < 16), (0xF0FF#16)[i] = decide (12 ≤ i ∨ i < 8) := by
  decide

@[simp] theorem fieldOp_wordNNN (base : Word) (nnn : Addr) : fieldOp (wordNNN base nnn) = fieldOp base := by
  ext i hi
  simp only [fieldOp, wordNNN, BitVec.getElem_extractLsb',
    BitVec.getLsbD_or, BitVec.getLsbD_setWidth]
  grind

@[simp] theorem fieldNNN_wordNNN (base : Word) (nnn : Addr) : fieldNNN (wordNNN base nnn) = fieldNNN base ||| nnn := by
  ext i hi
  simp only [fieldNNN, wordNNN, BitVec.getElem_extractLsb',
    BitVec.getLsbD_or, BitVec.getLsbD_setWidth]
  grind

@[simp] theorem and_F000_wordNNN (base : Word) (nnn : Addr) : wordNNN base nnn &&& 0xF000#16 = base &&& 0xF000#16 := by
  ext i hi
  simp only [wordNNN, BitVec.getElem_and, BitVec.getElem_or, getElem_F000, BitVec.getElem_setWidth]
  grind

@[simp] theorem fieldOp_wordXKK (base : Word) (x : Nibble) (kk : Byte) : fieldOp (wordXKK base x kk) = fieldOp base := by
  ext i hi
  simp only [fieldOp, wordXKK, BitVec.getElem_extractLsb',
    BitVec.getLsbD_or, BitVec.getLsbD_shiftLeft, BitVec.getLsbD_setWidth]
  grind

@[simp] theorem fieldX_wordXKK (base : Word) (x : Nibble) (kk : Byte) : fieldX (wordXKK base x kk) = fieldX base ||| x := by
  ext i hi
  simp only [fieldX, wordXKK, BitVec.getElem_extractLsb',
    BitVec.getLsbD_or, BitVec.getLsbD_shiftLeft, BitVec.getLsbD_setWidth]
  grind

@[simp] theorem fieldKK_wordXKK (base : Word) (x : Nibble) (kk : Byte) : fieldKK (wordXKK base x kk) = fieldKK base ||| kk := by
  ext i hi
  simp only [fieldKK, wordXKK, BitVec.getElem_extractLsb',
    BitVec.getLsbD_or, BitVec.getLsbD_shiftLeft, BitVec.getLsbD_setWidth]
  grind

@[simp] theorem and_F000_wordXKK (base : Word) (x : Nibble) (kk : Byte) : wordXKK base x kk &&& 0xF000#16 = base &&& 0xF000#16 := by
  ext i hi
  simp only [wordXKK, BitVec.getElem_and, BitVec.getElem_or, getElem_F000, BitVec.getElem_shiftLeft,
    BitVec.getElem_setWidth]
  grind

@[simp] theorem fieldOp_wordXY (base : Word) (x y : Nibble) : fieldOp (wordXY base x y) = fieldOp base := by
  ext i hi
  simp only [fieldOp, wordXY, BitVec.getElem_extractLsb',
    BitVec.getLsbD_or, BitVec.getLsbD_shiftLeft, BitVec.getLsbD_setWidth]
  grind

@[simp] theorem fieldX_wordXY (base : Word) (x y : Nibble) : fieldX (wordXY base x y) = fieldX base ||| x := by
  ext i hi
  simp only [fieldX, wordXY, BitVec.getElem_extractLsb',
    BitVec.getLsbD_or, BitVec.getLsbD_shiftLeft, BitVec.getLsbD_setWidth]
  grind

@[simp] theorem fieldY_wordXY (base : Word) (x y : Nibble) : fieldY (wordXY base x y) = fieldY base ||| y := by
  ext i hi
  simp only [fieldY, wordXY, BitVec.getElem_extractLsb',
    BitVec.getLsbD_or, BitVec.getLsbD_shiftLeft, BitVec.getLsbD_setWidth]
  grind

@[simp] theorem fieldN_wordXY (base : Word) (x y : Nibble) : fieldN (wordXY base x y) = fieldN base := by
  ext i hi
  simp only [fieldN, wordXY, BitVec.getElem_extractLsb',
    BitVec.getLsbD_or, BitVec.getLsbD_shiftLeft, BitVec.getLsbD_setWidth]
  grind

@[simp] theorem and_F00F_wordXY (base : Word) (x y : Nibble) : wordXY base x y &&& 0xF00F#16 = base &&& 0xF00F#16 := by
  ext i hi
  simp only [wordXY, BitVec.getElem_and, BitVec.getElem_or, getElem_F00F, BitVec.getElem_shiftLeft,
    BitVec.getElem_setWidth]
  grind

@[simp] theorem fieldOp_wordXYN (base : Word) (x y n : Nibble) : fieldOp (wordXYN base x y n) = fieldOp base := by
  ext i hi
  simp only [fieldOp, wordXYN, wordXY, BitVec.getElem_extractLsb',
    BitVec.getLsbD_or, BitVec.getLsbD_shiftLeft, BitVec.getLsbD_setWidth]
  grind

@[simp] theorem fieldX_wordXYN (base : Word) (x y n : Nibble) : fieldX (wordXYN base x y n) = fieldX base ||| x := by
  ext i hi
  simp only [fieldX, wordXYN, wordXY, BitVec.getElem_extractLsb',
    BitVec.getLsbD_or, BitVec.getLsbD_shiftLeft, BitVec.getLsbD_setWidth]
  grind

@[simp] theorem fieldY_wordXYN (base : Word) (x y n : Nibble) : fieldY (wordXYN base x y n) = fieldY base ||| y := by
  ext i hi
  simp only [fieldY, wordXYN, wordXY, BitVec.getElem_extractLsb',
    BitVec.getLsbD_or, BitVec.getLsbD_shiftLeft, BitVec.getLsbD_setWidth]
  grind

@[simp] theorem fieldN_wordXYN (base : Word) (x y n : Nibble) : fieldN (wordXYN base x y n) = fieldN base ||| n := by
  ext i hi
  simp only [fieldN, wordXYN, wordXY, BitVec.getElem_extractLsb',
    BitVec.getLsbD_or, BitVec.getLsbD_shiftLeft, BitVec.getLsbD_setWidth]
  grind

@[simp] theorem and_F000_wordXYN (base : Word) (x y n : Nibble) : wordXYN base x y n &&& 0xF000#16 = base &&& 0xF000#16 := by
  ext i hi
  simp only [wordXYN, wordXY, BitVec.getElem_and, BitVec.getElem_or, getElem_F000, BitVec.getElem_shiftLeft,
    BitVec.getElem_setWidth]
  grind

@[simp] theorem fieldOp_wordX (base : Word) (x : Nibble) : fieldOp (wordX base x) = fieldOp base := by
  ext i hi
  simp only [fieldOp, wordX, BitVec.getElem_extractLsb',
    BitVec.getLsbD_or, BitVec.getLsbD_shiftLeft, BitVec.getLsbD_setWidth]
  grind

@[simp] theorem fieldX_wordX (base : Word) (x : Nibble) : fieldX (wordX base x) = fieldX base ||| x := by
  ext i hi
  simp only [fieldX, wordX, BitVec.getElem_extractLsb',
    BitVec.getLsbD_or, BitVec.getLsbD_shiftLeft, BitVec.getLsbD_setWidth]
  grind

@[simp] theorem fieldKK_wordX (base : Word) (x : Nibble) : fieldKK (wordX base x) = fieldKK base := by
  ext i hi
  simp only [fieldKK, wordX, BitVec.getElem_extractLsb',
    BitVec.getLsbD_or, BitVec.getLsbD_shiftLeft, BitVec.getLsbD_setWidth]
  grind

@[simp] theorem and_F0FF_wordX (base : Word) (x : Nibble) : wordX base x &&& 0xF0FF#16 = base &&& 0xF0FF#16 := by
  ext i hi
  simp only [wordX, BitVec.getElem_and, BitVec.getElem_or, getElem_F0FF, BitVec.getElem_shiftLeft,
    BitVec.getElem_setWidth]
  grind

/-- Laying a word out in memory order and reading it back gives the word (R64). -/
@[simp] theorem wordOfBytes_bytesOfWord (w : Word) :
    wordOfBytes (w.extractLsb' 8 8) (w.extractLsb' 0 8) = w := by
  unfold wordOfBytes
  ext i hi
  grind

end Sys2Proof
end

