-- ==== Sys2Proof/Laws/Display.lean ====
section
/-! SUPPORT. Laws/Display.lean: what a blit does to each pixel, and when it reports a collision (spec/44_display.md R222 to R226). -/

namespace Sys2Proof.Machine

/-- A flip inverts its pixel and leaves every other alone. -/
theorem Display.pixel_flip (d : Display) (px qx : Fin 64) (py qy : Fin 32) :
    Display.pixel (Display.flip d px py) qx qy =
      (Display.pixel d qx qy ^^ decide (qx = px ∧ qy = py)) := by
  simp only [Display.pixel, Display.flip, Vector.getElem_set]
  have hq := qx.isLt
  by_cases hy : py.val = qy.val
  · have : qy = py := Fin.ext hy.symm
    subst this
    simp only [if_true, BitVec.getLsbD_xor, BitVec.getLsbD_twoPow, and_true, px.isLt, decide_true, Bool.true_and,
      Fin.ext_iff]
    grind
  · have : qy ≠ py := fun h => hy (by rw [h])
    simp [hy, this]

@[simp] theorem Display.pixel_clear (px : Fin 64) (py : Fin 32) : Display.pixel Display.clear px py = false := by
  simp [Display.pixel, Display.clear]

/-- Two surfaces with the same pixels are the same. -/
theorem Display.ext_pixel {d e : Display} (h : ∀ px py, Display.pixel d px py = Display.pixel e px py) : d = e := by
  apply Vector.ext
  intro k hk
  apply BitVec.eq_of_getLsbD_eq
  intro j hj
  have := h ⟨j, hj⟩ ⟨k, hk⟩
  simpa [Display.pixel] using this

/-- The sprite bit a row byte puts on column px when its column 0 stands at x0 (R223, R226): none outside x0 .. x0 + 7. -/
def rowBit (row : Byte) (x0 : Nat) (px : Fin 64) : Bool :=
  decide (x0 ≤ px.val ∧ px.val < x0 + 8) && row.getLsbD (7 - (px.val - x0))

/-- The part of `rowBit` that the columns of a list contribute. -/
def colsBit (row : Byte) (x0 : Nat) (px : Fin 64) (cols : List Nat) : Bool :=
  cols.any fun c => decide (px.val = x0 + c) && row.getLsbD (7 - c)

theorem pixel_foldl_blitPixel (row : Byte) (x0 : Nat) (py : Fin 32) (cols : List Nat) (hd : cols.Nodup) : ∀ (acc : Blit)
    (qx : Fin 64) (qy : Fin 32),
    Display.pixel (cols.foldl (blitPixel row x0 py) acc).disp qx qy =
      (Display.pixel acc.disp qx qy ^^ (decide (qy = py) && colsBit row x0 qx cols)) := by
  induction cols with
  | nil => intro acc qx qy; simp [colsBit]
  | cons c cols ih =>
    intro acc qx qy
    rw [List.nodup_cons] at hd
    rw [List.foldl_cons, ih hd.2]
    have hpix : Display.pixel (blitPixel row x0 py acc c).disp qx qy =
        (Display.pixel acc.disp qx qy ^^ (decide (qy = py) && (decide (qx.val = x0 + c) && row.getLsbD (7 - c)))) := by
      unfold blitPixel
      split
      · split
        · next h hb => simp [Display.pixel_flip, hb, Fin.ext_iff, Bool.and_comm]
        · next h hb => simp [hb]
      · next h =>
        have : ¬ qx.val = x0 + c := by have := qx.isLt; omega
        simp [this]
    rw [hpix]
    have hdisj : (decide (qx.val = x0 + c) && row.getLsbD (7 - c)) = true → colsBit row x0 qx cols = false := by
      intro h
      simp only [Bool.and_eq_true, decide_eq_true_eq] at h
      simp only [colsBit, List.any_eq_false, Bool.and_eq_true, decide_eq_true_eq, not_and]
      intro c' hc' he
      have : c' = c := by omega
      exact absurd (this ▸ hc') hd.1
    simp only [colsBit, List.any_cons] at hdisj ⊢
    grind

theorem colsBit_all (row : Byte) (x0 : Nat) (px : Fin 64) :
    colsBit row x0 px [0, 1, 2, 3, 4, 5, 6, 7] = rowBit row x0 px := by
  simp only [colsBit, rowBit, List.any_cons, List.any_nil, Bool.or_false]
  by_cases h : x0 ≤ px.val ∧ px.val < x0 + 8
  · obtain ⟨k, hk⟩ : ∃ k, px.val = x0 + k := ⟨px.val - x0, by omega⟩
    have : k < 8 := by omega
    rw [hk]
    rcases k with _ | _ | _ | _ | _ | _ | _ | _ | k <;> simp_all <;> omega
  · grind

/-- One sprite row inverts the pixels its 1 bits fall on, on its display row, and no other (R222, R223, R226). -/
theorem pixel_blitRow (row : Byte) (x0 : Nat) (py : Fin 32) (acc : Blit) (qx : Fin 64) (qy : Fin 32) :
    Display.pixel (blitRow row x0 py acc).disp qx qy =
      (Display.pixel acc.disp qx qy ^^ (decide (qy = py) && rowBit row x0 qx)) := by
  rw [blitRow, pixel_foldl_blitPixel _ _ _ _ (by decide), colsBit_all]

theorem collision_foldl_blitPixel (row : Byte) (x0 : Nat) (py : Fin 32) (cols : List Nat) (hd : cols.Nodup) : ∀ acc : Blit,
    (cols.foldl (blitPixel row x0 py) acc).collision = true ↔
      acc.collision = true ∨ ∃ qx : Fin 64, colsBit row x0 qx cols = true ∧ Display.pixel acc.disp qx py = true := by
  induction cols with
  | nil => intro acc; simp [colsBit]
  | cons c cols ih =>
    intro acc
    rw [List.nodup_cons] at hd
    rw [List.foldl_cons, ih hd.2]
    have hsplit : ∀ qx : Fin 64, colsBit row x0 qx (c :: cols) = true ↔
        (qx.val = x0 + c ∧ row.getLsbD (7 - c) = true) ∨ colsBit row x0 qx cols = true := by
      intro qx; simp [colsBit]
    have hno : ∀ qx : Fin 64, qx.val = x0 + c → colsBit row x0 qx cols = false := by
      intro qx h
      simp only [colsBit, List.any_eq_false, Bool.and_eq_true, decide_eq_true_eq, not_and]
      intro c' hc' he
      have : c' = c := by omega
      exact absurd (this ▸ hc') hd.1
    simp only [hsplit]
    unfold blitPixel
    split
    · next h =>
      split
      · next hb =>
        simp only [Display.pixel_flip, Bool.or_eq_true]
        constructor
        · rintro ((h1 | h1) | ⟨qx, h1, h2⟩)
          · exact .inl h1
          · exact .inr ⟨⟨x0 + c, h⟩, .inl ⟨rfl, hb⟩, h1⟩
          · refine .inr ⟨qx, .inr h1, ?_⟩
            have hne : ¬ qx = ⟨x0 + c, h⟩ := by
              intro he
              have := hno qx (by rw [he])
              simp [this] at h1
            simpa [hne] using h2
        · rintro (h1 | ⟨qx, (⟨h1, _⟩ | h1), h2⟩)
          · exact .inl (.inl h1)
          · have : qx = ⟨x0 + c, h⟩ := Fin.ext h1
            subst this
            exact .inl (.inr h2)
          · refine .inr ⟨qx, h1, ?_⟩
            have hne : ¬ qx = ⟨x0 + c, h⟩ := by
              intro he
              have := hno qx (by rw [he])
              simp [this] at h1
            simpa [hne] using h2
      · next hb => simp [hb]
    · next h =>
      have : ∀ qx : Fin 64, ¬ qx.val = x0 + c := by intro qx; have := qx.isLt; omega
      simp [this]

/-- One sprite row reports a collision exactly when one of its 1 bits meets a set pixel (R225). -/
theorem collision_blitRow (row : Byte) (x0 : Nat) (py : Fin 32) (acc : Blit) :
    (blitRow row x0 py acc).collision = true ↔
      acc.collision = true ∨ ∃ qx : Fin 64, rowBit row x0 qx = true ∧ Display.pixel acc.disp qx py = true := by
  rw [blitRow, collision_foldl_blitPixel _ _ _ _ (by decide)]
  simp only [colsBit_all]

/-- The sprite bit that falls on a pixel: sprite row r stands on display row (y0 + r) mod 32 (R224). -/
def spriteBit (rows : List Byte) (x0 y0 : Nat) (px : Fin 64) (py : Fin 32) : Bool :=
  (List.range rows.length).any fun r => decide (py.val = (y0 + r) % 32) && rowBit (rows.getD r 0) x0 px

theorem pixel_blitRows (x0 y0 : Nat) (rows : List Byte) : ∀ (r : Nat) (acc : Blit) (qx : Fin 64) (qy : Fin 32),
    rows.length ≤ 32 →
    Display.pixel (blitRows x0 y0 rows r acc).disp qx qy =
      (Display.pixel acc.disp qx qy ^^
        (List.range rows.length).any fun k => decide (qy.val = (y0 + (r + k)) % 32) && rowBit (rows.getD k 0) x0 qx) := by
  induction rows with
  | nil => intro r acc qx qy _; simp [blitRows]
  | cons row rows ih =>
    intro r acc qx qy hlen
    simp only [List.length_cons] at hlen
    rw [blitRows, ih _ _ _ _ (by omega), pixel_blitRow]
    simp only [List.length_cons, List.range_succ_eq_map, List.any_cons, List.any_map, Nat.add_zero, Function.comp_def,
      List.getD_cons_succ, List.getD_cons_zero, Nat.succ_eq_add_one]
    have hrow : decide (qy = blitRowIndex y0 r) = decide (qy.val = (y0 + r) % 32) := by
      simp [blitRowIndex, Fin.ext_iff]
    rw [hrow]
    have hshift : ∀ k, r + 1 + k = r + (k + 1) := fun k => by omega
    simp only [hshift]
    by_cases hy : qy.val = (y0 + r) % 32
    · have : ((List.range rows.length).any fun k => decide (qy.val = (y0 + (r + (k + 1))) % 32) && rowBit (rows.getD k 0) x0 qx) = false := by
        simp only [List.any_eq_false, List.mem_range, Bool.and_eq_true, decide_eq_true_eq, not_and]
        intro k hk he
        omega
      rw [this]; simp
    · simp [hy]

/-- A blit of at most 32 rows inverts exactly the pixels a sprite bit 1 falls on (R222). -/
theorem pixel_blit (d : Display) (rows : List Byte) (x y : Byte) (qx : Fin 64) (qy : Fin 32) (hlen : rows.length ≤ 32) :
    Display.pixel (blit d rows x y).disp qx qy =
      (Display.pixel d qx qy ^^ spriteBit rows (x.toNat % 64) (y.toNat % 32) qx qy) := by
  rw [blit, pixel_blitRows _ _ _ _ _ _ _ hlen]
  simp [spriteBit]

theorem collision_blitRows (x0 y0 : Nat) (rows : List Byte) : ∀ (r : Nat) (acc : Blit), rows.length ≤ 32 →
    ((blitRows x0 y0 rows r acc).collision = true ↔ acc.collision = true ∨
      ∃ k, k < rows.length ∧ ∃ qx : Fin 64, rowBit (rows.getD k 0) x0 qx = true ∧
        Display.pixel acc.disp qx (blitRowIndex y0 (r + k)) = true) := by
  induction rows with
  | nil => intro r acc _; simp [blitRows]
  | cons row rows ih =>
    intro r acc hlen
    simp only [List.length_cons] at hlen
    rw [blitRows, ih _ _ (by omega), collision_blitRow]
    have hne : ∀ k, k < rows.length → blitRowIndex y0 (r + 1 + k) ≠ blitRowIndex y0 r := by
      intro k hk
      simp only [blitRowIndex, ne_eq, Fin.mk.injEq]
      omega
    constructor
    · rintro ((h | ⟨qx, h1, h2⟩) | ⟨k, hk, qx, h1, h2⟩)
      · exact .inl h
      · exact .inr ⟨0, by simp, qx, by simpa using h1, h2⟩
      · refine .inr ⟨k + 1, by simpa using hk, qx, by simpa using h1, ?_⟩
        rw [pixel_blitRow] at h2
        simp only [hne k hk, decide_false, Bool.false_and, Bool.xor_false] at h2
        rw [show r + (k + 1) = r + 1 + k by omega]
        exact h2
    · rintro (h | ⟨k, hk, qx, h1, h2⟩)
      · exact .inl (.inl h)
      · cases k with
        | zero => exact .inl (.inr ⟨qx, by simpa using h1, h2⟩)
        | succ k =>
          simp only [List.length_cons] at hk
          refine .inr ⟨k, by omega, qx, by simpa using h1, ?_⟩
          rw [pixel_blitRow]
          simp only [hne k (by omega), decide_false, Bool.false_and, Bool.xor_false]
          rw [show r + 1 + k = r + (k + 1) by omega]
          exact h2

/-- A blit reports a collision exactly when a sprite bit 1 falls on a pixel that was set (R225). -/
theorem collision_blit (d : Display) (rows : List Byte) (x y : Byte) (hlen : rows.length ≤ 32) :
    (blit d rows x y).collision = true ↔
      ∃ qx qy, spriteBit rows (x.toNat % 64) (y.toNat % 32) qx qy = true ∧ Display.pixel d qx qy = true := by
  rw [blit, collision_blitRows _ _ _ _ _ hlen]
  simp only [Bool.false_eq_true, false_or, Nat.zero_add, spriteBit, List.any_eq_true, List.mem_range, Bool.and_eq_true,
    decide_eq_true_eq]
  constructor
  · rintro ⟨k, hk, qx, h1, h2⟩
    exact ⟨qx, blitRowIndex (y.toNat % 32) k, ⟨k, hk, rfl, h1⟩, h2⟩
  · rintro ⟨qx, qy, ⟨k, hk, hy, h1⟩, h2⟩
    refine ⟨k, hk, qx, h1, ?_⟩
    have : qy = blitRowIndex (y.toNat % 32) k := Fin.ext hy
    rw [← this]; exact h2

end Sys2Proof.Machine
end

