-- ==== Sys2Proof/Laws/Memory.lean ====
section
/-! SUPPORT. Laws/Memory.lean: reading after writing, and that every memory operation keeps the canonical form (spec/20_memory.md R62, R72). -/

namespace Sys2Proof.Machine

@[simp] theorem Memory.wf_nil : Memory.wf [] = true := rfl

@[simp] theorem Memory.wf_cons (a : Nat) (v : Byte) (m : Memory) :
    Memory.wf ((a, v) :: m) = true ↔
      a < Config.memSize ∧ v ≠ Memory.unlisted ∧ (∀ c ∈ m, a < c.1) ∧ Memory.wf m = true := by
  simp only [Memory.wf, Bool.and_eq_true, decide_eq_true_eq, bne_iff_ne, List.all_eq_true, and_assoc]

/-- An address below every listed one reads as unlisted. -/
theorem Memory.read_of_all_gt (m : Memory) (a : Nat) (h : ∀ c ∈ m, a < c.1) : m.read a = Memory.unlisted := by
  induction m with
  | nil => rfl
  | cons c m ih =>
    obtain ⟨b, w⟩ := c
    have hb : a < b := h (b, w) (by simp)
    simp only [Memory.read, if_neg (Nat.ne_of_lt hb)]
    exact ih fun c hc => h c (by simp [hc])

/-- A write leaves every other address alone; no canonical form is needed for that. -/
theorem Memory.read_write_ne (m : Memory) (a c : Nat) (v : Byte) (h : c ≠ a) :
    (m.write a v).read c = m.read c := by
  induction m with
  | nil => simp only [Memory.write]; split <;> simp [Memory.read, h]
  | cons e m ih =>
    obtain ⟨b, w⟩ := e
    simp only [Memory.write]
    grind [Memory.read]

/-- A write to canonical memory is read back. -/
theorem Memory.read_write_same (m : Memory) (a : Nat) (v : Byte) (hm : m.wf = true) : (m.write a v).read a = v := by
  induction m with
  | nil => simp only [Memory.write]; split <;> simp_all [Memory.read]
  | cons e m ih =>
    obtain ⟨b, w⟩ := e
    rw [Memory.wf_cons] at hm
    have hgt := fun (h : ∀ c ∈ m, a < c.1) => Memory.read_of_all_gt m a h
    simp only [Memory.write]
    grind [Memory.read]

/-- Reading after a write to canonical memory. -/
theorem Memory.read_write (m : Memory) (a c : Nat) (v : Byte) (hm : m.wf = true) :
    (m.write a v).read c = if c = a then v else m.read c := by
  split
  · next h => subst h; exact Memory.read_write_same m c v hm
  · next h => exact Memory.read_write_ne m a c v h

/-- Every address a write lists was listed, or is the one written. -/
theorem Memory.mem_write (m : Memory) (a : Nat) (v : Byte) (c : Host.Cell) (hc : c ∈ m.write a v) :
    c ∈ m ∨ c = (a, v) := by
  induction m with
  | nil => simp only [Memory.write] at hc; grind
  | cons e m ih =>
    obtain ⟨b, w⟩ := e
    simp only [Memory.write] at hc
    grind

/-- A write inside the address space keeps the canonical form. -/
theorem Memory.wf_write (m : Memory) (a : Nat) (v : Byte) (ha : a < Config.memSize) (hm : m.wf = true) :
    (m.write a v).wf = true := by
  induction m with
  | nil => simp only [Memory.write]; split <;> simp_all
  | cons e m ih =>
    obtain ⟨b, w⟩ := e
    rw [Memory.wf_cons] at hm
    obtain ⟨hb, hw, hgt, hm⟩ := hm
    simp only [Memory.write]
    split
    · split
      · exact (Memory.wf_cons b w m).2 ⟨hb, hw, hgt, hm⟩
      · next hab hv =>
        simp only [Memory.wf_cons, List.mem_cons, forall_eq_or_imp]
        exact ⟨ha, hv, ⟨hab, fun c hc => Nat.lt_trans hab (hgt c hc)⟩, hb, hw, hgt, hm⟩
    · split
      · split
        · exact hm
        · next hab hv =>
          subst hab
          exact (Memory.wf_cons a v m).2 ⟨hb, hv, hgt, hm⟩
      · simp only [Memory.wf_cons]
        refine ⟨hb, hw, fun c hc => ?_, ih hm⟩
        rcases Memory.mem_write m a v c hc with h | h
        · exact hgt c h
        · subst h; simp only; omega

/-- A block write that stays in the address space keeps the canonical form. -/
theorem Memory.wf_writeBlock (bs : List Byte) : ∀ (m : Memory) (base : Nat), base + bs.length ≤ Config.memSize →
    m.wf = true → (m.writeBlock base bs).wf = true := by
  induction bs with
  | nil => intro m base _ hm; exact hm
  | cons b bs ih =>
    intro m base h hm
    simp only [List.length_cons] at h
    exact ih _ _ (by omega) (Memory.wf_write m base b (by omega) hm)

/-- A block write leaves every address outside the block alone. -/
theorem Memory.read_writeBlock_outside (bs : List Byte) : ∀ (m : Memory) (base a : Nat),
    ¬ (base ≤ a ∧ a < base + bs.length) → (m.writeBlock base bs).read a = m.read a := by
  induction bs with
  | nil => intro m base a _; rfl
  | cons b bs ih =>
    intro m base a h
    simp only [List.length_cons] at h
    rw [Memory.writeBlock, ih _ _ _ (by omega), Memory.read_write_ne _ _ _ _ (by omega)]

/-- A block write to canonical memory is read back in order. -/
theorem Memory.read_writeBlock_inside (bs : List Byte) : ∀ (m : Memory) (base k : Nat),
    base + bs.length ≤ Config.memSize → m.wf = true → k < bs.length →
    (m.writeBlock base bs).read (base + k) = bs.getD k 0 := by
  induction bs with
  | nil => intro m base k _ _ hk; simp at hk
  | cons b bs ih =>
    intro m base k h hm hk
    simp only [List.length_cons] at h hk
    rw [Memory.writeBlock]
    cases k with
    | zero =>
      rw [Memory.read_writeBlock_outside _ _ _ _ (by omega), Nat.add_zero, Memory.read_write_same _ _ _ hm]
      rfl
    | succ k =>
      have := ih (m.write base b) (base + 1) k (by omega) (Memory.wf_write m base b (by omega) hm) (by omega)
      rw [show base + (k + 1) = base + 1 + k by omega, this]
      rfl

@[simp] theorem Memory.length_readBlock (m : Memory) : ∀ (n base : Nat), (m.readBlock base n).length = n := by
  intro n
  induction n with
  | zero => intro base; rfl
  | succ n ih => intro base; simp [Memory.readBlock, ih]

/-- The k-th byte of a block read. -/
theorem Memory.getD_readBlock (m : Memory) : ∀ (n base k : Nat), k < n →
    (m.readBlock base n).getD k 0 = m.read (base + k) := by
  intro n
  induction n with
  | zero => intro base k h; omega
  | succ n ih =>
    intro base k h
    cases k with
    | zero => rfl
    | succ k =>
      simp only [Memory.readBlock, List.getD_cons_succ]
      rw [ih (base + 1) k (by omega)]
      congr 1; omega

end Sys2Proof.Machine
end

