-- ==== Sys2Proof/Laws/PerInstr.lean ====
section
/-! SUPPORT. Laws/PerInstr.lean: the family SelectsRow of LAWS.json: the word an instruction is encoded to selects the instruction's own row of the opcode map (spec/30_encoding.md R95, R103). One lemma per constructor of Instr. -/

namespace Sys2Proof.Laws.SelectsRow

/-- The encoding of a well-formed instruction selects its row: `w AND mask = match`. -/
def Statement (i : Instr) : Prop := i.wellFormed = true → i.row.selects (encode i) = true

theorem cls : Statement .cls := fun _ => by decide

theorem ret : Statement .ret := fun _ => by decide

theorem jp (nnn : Addr) : Statement (.jp nnn) := by simp [Statement, Row.selects, Instr.row, encode]

theorem call (nnn : Addr) : Statement (.call nnn) := by simp [Statement, Row.selects, Instr.row, encode]

theorem seImm (x : Nibble) (kk : Byte) : Statement (.seImm x kk) := by simp [Statement, Row.selects, Instr.row, encode]

theorem sneImm (x : Nibble) (kk : Byte) : Statement (.sneImm x kk) := by simp [Statement, Row.selects, Instr.row, encode]

theorem seReg (x y : Nibble) : Statement (.seReg x y) := by simp [Statement, Row.selects, Instr.row, encode]

theorem ldImm (x : Nibble) (kk : Byte) : Statement (.ldImm x kk) := by simp [Statement, Row.selects, Instr.row, encode]

theorem addImm (x : Nibble) (kk : Byte) : Statement (.addImm x kk) := by simp [Statement, Row.selects, Instr.row, encode]

theorem ldReg (x y : Nibble) : Statement (.ldReg x y) := by simp [Statement, Row.selects, Instr.row, encode]

theorem orReg (x y : Nibble) : Statement (.orReg x y) := by simp [Statement, Row.selects, Instr.row, encode]

theorem andReg (x y : Nibble) : Statement (.andReg x y) := by simp [Statement, Row.selects, Instr.row, encode]

theorem xorReg (x y : Nibble) : Statement (.xorReg x y) := by simp [Statement, Row.selects, Instr.row, encode]

theorem addReg (x y : Nibble) : Statement (.addReg x y) := by simp [Statement, Row.selects, Instr.row, encode]

theorem subReg (x y : Nibble) : Statement (.subReg x y) := by simp [Statement, Row.selects, Instr.row, encode]

theorem shr (x y : Nibble) : Statement (.shr x y) := by simp [Statement, Row.selects, Instr.row, encode]

theorem subnReg (x y : Nibble) : Statement (.subnReg x y) := by simp [Statement, Row.selects, Instr.row, encode]

theorem shl (x y : Nibble) : Statement (.shl x y) := by simp [Statement, Row.selects, Instr.row, encode]

theorem sneReg (x y : Nibble) : Statement (.sneReg x y) := by simp [Statement, Row.selects, Instr.row, encode]

theorem ldI (nnn : Addr) : Statement (.ldI nnn) := by simp [Statement, Row.selects, Instr.row, encode]

theorem jpV0 (nnn : Addr) : Statement (.jpV0 nnn) := by simp [Statement, Row.selects, Instr.row, encode]

theorem rnd (x : Nibble) (kk : Byte) : Statement (.rnd x kk) := by simp [Statement, Row.selects, Instr.row, encode]

theorem drw (x y n : Nibble) : Statement (.drw x y n) := by simp [Statement, Row.selects, Instr.row, encode]

theorem skp (x : Nibble) : Statement (.skp x) := by simp [Statement, Row.selects, Instr.row, encode]

theorem sknp (x : Nibble) : Statement (.sknp x) := by simp [Statement, Row.selects, Instr.row, encode]

theorem ldFromDt (x : Nibble) : Statement (.ldFromDt x) := by simp [Statement, Row.selects, Instr.row, encode]

theorem ldKey (x : Nibble) : Statement (.ldKey x) := by simp [Statement, Row.selects, Instr.row, encode]

theorem ldDt (x : Nibble) : Statement (.ldDt x) := by simp [Statement, Row.selects, Instr.row, encode]

theorem ldSt (x : Nibble) : Statement (.ldSt x) := by simp [Statement, Row.selects, Instr.row, encode]

theorem addI (x : Nibble) : Statement (.addI x) := by simp [Statement, Row.selects, Instr.row, encode]

theorem ldFont (x : Nibble) : Statement (.ldFont x) := by simp [Statement, Row.selects, Instr.row, encode]

theorem bcd (x : Nibble) : Statement (.bcd x) := by simp [Statement, Row.selects, Instr.row, encode]

theorem store (x : Nibble) : Statement (.store x) := by simp [Statement, Row.selects, Instr.row, encode]

theorem load (x : Nibble) : Statement (.load x) := by simp [Statement, Row.selects, Instr.row, encode]

theorem unknown (word : Word) : Statement (.unknown word) := by simp [Statement, Row.selects, Instr.row, encode]

end Sys2Proof.Laws.SelectsRow
end

