-- ==== Sys2Proof/Laws/Registers.lean ====
section
/-! SUPPORT. Laws/Registers.lean: what reading a register gives after each operation that writes registers (spec/10_state.md R20, R21; spec/42_alu.md R172). -/

namespace Sys2Proof.Machine

variable (s : State)

/-- A write to V[x] is read back at x and nowhere else. -/
@[simp] theorem State.readReg_writeReg (x r : Nibble) (b : Byte) :
    (s.writeReg x b).readReg r = if r = x then b else s.readReg r := by
  simp only [State.readReg, State.writeReg, Vector.getElem_set, BitVec.toNat_inj]
  grind

@[simp] theorem State.readReg_setFlag (r : Nibble) (b : Bool) :
    (s.setFlag b).readReg r = if r = regF then flagByte b else s.readReg r :=
  s.readReg_writeReg regF r (flagByte b)

/-- The flag is written last: at VF the flag is read, whatever x is (R172). -/
@[simp] theorem State.readReg_writeResultFlag (x r : Nibble) (result : Byte) (flag : Bool) :
    (s.writeResultFlag x result flag).readReg r =
      if r = regF then flagByte flag else if r = x then result else s.readReg r := by
  simp [State.writeResultFlag]

/-- Two states with the same registers, read one by one, have the same V. -/
theorem State.v_ext {s t : State} (h : ∀ r, s.readReg r = t.readReg r) : s.v = t.v := by
  apply Vector.ext
  intro k hk
  have := h (BitVec.ofNat 4 k)
  simpa [State.readReg, Nat.mod_eq_of_lt hk] using this

/-- The registers after a block write from register k on: the bytes in order, every other register unchanged. -/
theorem getElem_setRegs (bs : List Byte) : ∀ (v : Vector Byte 16) (k r : Nat) (hr : r < 16), k + bs.length ≤ 16 →
    (setRegs v k bs)[r] = if k ≤ r ∧ r < k + bs.length then bs.getD (r - k) 0 else v[r] := by
  induction bs with
  | nil =>
    intro v k r _ _
    rw [setRegs, List.length_nil, if_neg (by omega)]
  | cons b bs ih =>
    intro v k r hr hk
    simp only [List.length_cons] at hk
    rw [setRegs, dif_pos (by omega), ih _ _ _ hr (by omega), Vector.getElem_set]
    rcases Nat.lt_trichotomy r k with h | h | h
    · grind
    · subst h
      rw [if_neg (by omega), if_pos rfl, if_pos (by simp only [List.length_cons]; omega), Nat.sub_self]
      rfl
    · have : r - k = (r - (k + 1)) + 1 := by omega
      rw [this]
      simp only [List.getD_cons_succ, List.length_cons]
      grind

/-- A block load of n bytes is read back in V0 .. V(n-1); every register above is unchanged. -/
theorem State.readReg_writeRegs (bs : List Byte) (r : Nibble) (h : bs.length ≤ 16) :
    (s.writeRegs bs).readReg r = if r.toNat < bs.length then bs.getD r.toNat 0 else s.readReg r := by
  simp only [State.readReg, State.writeRegs]
  rw [getElem_setRegs _ _ _ _ r.isLt (by omega)]
  simp

/-- The block a store moves: V0..Vx in order. -/
theorem State.length_readRegs (x : Nibble) : (s.readRegs x).length = x.toNat + 1 := by
  have := x.isLt
  simp [State.readRegs]; omega

theorem State.getD_readRegs (x r : Nibble) (h : r.toNat ≤ x.toNat) : (s.readRegs x).getD r.toNat 0 = s.readReg r := by
  have := x.isLt
  have hr := r.isLt
  simp [State.readRegs, State.readReg, List.getD_eq_getElem?_getD, Nat.lt_succ_of_le h]
  grind

end Sys2Proof.Machine
end

