-- ==== Sys2Proof/Tests/Slice0.lean ====
section
/-! SUPPORT. Tests/Slice0.lean: small checks of the model on the spec's own examples and vectors (spec/95_test_vectors.md and the Example lines of the rules); each names the vector it comes from. -/

namespace Sys2Proof.Tests

open Sys2Proof.Machine

/-! ### WellFormed: the check refuses an ill-formed term -/

theorem test_wellFormed_refuses_defined_word : (Instr.unknown 0x00E0).wellFormed = false := by decide
theorem test_wellFormed_accepts_unknown_word : (Instr.unknown 0x0000).wellFormed = true := by decide

/-! ### Decoding: words written out from the spec -/

-- R103, S9, T-DEC: one word at least for each family, the fields read off the pattern by hand.
theorem test_decode_display : decode 0x00E0 = .cls ∧ decode 0xD015 = .drw 0 1 5 := by decide
theorem test_decode_control : decode 0x00EE = .ret ∧ decode 0x10E0 = .jp 0x0E0 ∧ decode 0x2300 = .call 0x300
    ∧ decode 0xBFFF = .jpV0 0xFFF := by decide
theorem test_decode_skips : decode 0x310C = .seImm 1 0x0C ∧ decode 0x410C = .sneImm 1 0x0C ∧ decode 0x5120 = .seReg 1 2
    ∧ decode 0x9AB0 = .sneReg 0xA 0xB := by decide
theorem test_decode_imm : decode 0x637F = .ldImm 3 0x7F ∧ decode 0x7305 = .addImm 3 0x05 ∧ decode 0xCF00 = .rnd 0xF 0 := by decide
theorem test_decode_family8 : decode 0x8010 = .ldReg 0 1 ∧ decode 0x8011 = .orReg 0 1 ∧ decode 0x8012 = .andReg 0 1
    ∧ decode 0x8013 = .xorReg 0 1 ∧ decode 0x8AB4 = .addReg 0xA 0xB ∧ decode 0x8015 = .subReg 0 1
    ∧ decode 0x8236 = .shr 2 3 ∧ decode 0x8AB7 = .subnReg 0xA 0xB ∧ decode 0x8ABE = .shl 0xA 0xB := by decide
theorem test_decode_index : decode 0xA22A = .ldI 0x22A ∧ decode 0xF11E = .addI 1 ∧ decode 0xF429 = .ldFont 4
    ∧ decode 0xF033 = .bcd 0 ∧ decode 0xF255 = .store 2 ∧ decode 0xF165 = .load 1 := by decide
theorem test_decode_keys_timers : decode 0xE19E = .skp 1 ∧ decode 0xE1A1 = .sknp 1 ∧ decode 0xF507 = .ldFromDt 5
    ∧ decode 0xF30A = .ldKey 3 ∧ decode 0xF515 = .ldDt 5 ∧ decode 0xF518 = .ldSt 5 := by decide
-- T-DEC-3, 4, 5, 8, 10, 12, 14, 17, 19, 20, 23.
theorem test_decode_unknown : decode 0x0000 = .unknown 0x0000 ∧ decode 0x00E1 = .unknown 0x00E1 ∧ decode 0x0123 = .unknown 0x0123
    ∧ decode 0x8AB8 = .unknown 0x8AB8 ∧ decode 0x8ABF = .unknown 0x8ABF ∧ decode 0xE19F = .unknown 0xE19F
    ∧ decode 0xF175 = .unknown 0xF175 ∧ decode 0xFFFF = .unknown 0xFFFF := by decide
theorem test_decode_unknown_low_nibble : decode 0x5121 = .unknown 0x5121 ∧ decode 0x9ABF = .unknown 0x9ABF := by decide
theorem test_decodeBytes_big_endian : decodeBytes [0xA2, 0x2A, 0x60] = .ok (.ldI 0x22A, [0x60]) := by rfl
theorem test_decodeBytes_truncated : decodeBytes [0xA2] = .error .truncated := by rfl

/-! ### One cycle: helpers -/

/-- The reset state with the word w at 0x200 and registers preset, as the vectors' start line gives them. -/
def start (w : Nat) (regs : List (Nibble × Byte)) : State :=
  regs.foldl (fun s r => s.writeReg r.1 r.2) (State.reset.withFetchWord 16 w)

/-- One cycle, and what a reader sees of the state after it. -/
def after {α : Type} (s : State) (view : State → α) : Option α :=
  match step s with
  | .next t => some (view t)
  | _       => none

/-! ### Control flow -/

-- T-CF-1, T-CF-8, T-CF-9
theorem test_jp : after (start 0x1ABC []) (·.pc) = some 0xABC := by decide
theorem test_ret : after { start 0x00EE [] with sp := 1, stack := State.reset.stack.set 0 0x204 } (fun t => (t.pc, t.sp)) = some (0x204, 0) := by decide
theorem test_ret_empty : after (start 0x00EE []) (fun t => (t.pc, t.sp, t.run, t.fault)) = some (0x202, 0, .halted, some (.stackUnderflow 0x200)) := by decide
-- T-CF-5, T-CF-7 (at 0x200)
theorem test_call : after (start 0x2300 []) (fun t => (t.pc, t.sp, t.stack.get 0)) = some (0x300, 1, 0x202) := by decide
theorem test_call_full : after { start 0x2300 [] with sp := 16 } (fun t => (t.pc, t.sp, t.run, t.fault)) = some (0x202, 16, .halted, some (.stackOverflow 0x200)) := by decide
-- T-CF-12, T-CF-14
theorem test_jpV0_beyond : after (start 0xBFFF [(0, 0xFF)]) (·.pc) = some 0x10FE := by decide
theorem test_jpV0_uses_v0 : after (start 0xB500 [(0, 1), (5, 0x77)]) (·.pc) = some 0x501 := by decide
-- T-CF-15, 16, 17, 18, 19, 20, 22, 23
theorem test_seImm : after (start 0x310C [(1, 0x0C)]) (·.pc) = some 0x204 ∧ after (start 0x310C [(1, 0x0D)]) (·.pc) = some 0x202 := by decide
theorem test_sneImm : after (start 0x410C [(1, 0x0C)]) (·.pc) = some 0x202 ∧ after (start 0x410C [(1, 0x0D)]) (·.pc) = some 0x204 := by decide
theorem test_seReg : after (start 0x5230 [(2, 7), (3, 7)]) (·.pc) = some 0x204 ∧ after (start 0x5230 [(2, 7), (3, 8)]) (·.pc) = some 0x202 := by decide
theorem test_sneReg : after (start 0x9230 [(2, 7), (3, 8)]) (·.pc) = some 0x204 ∧ after (start 0x9230 [(2, 7), (3, 7)]) (·.pc) = some 0x202 := by decide

/-! ### Arithmetic and logic: (V0 or the named register, VF) -/

-- T-ALU-1, 3, 7, 8, 9, 10
theorem test_ldImm : after (start 0x6020 []) (fun t => (t.readReg 0, t.pc)) = some (0x20, 0x202) := by decide
theorem test_addImm_wraps_without_flag : after (start 0x7305 [(3, 0xFE)]) (fun t => (t.readReg 3, t.readReg 15)) = some (0x03, 0) := by decide
theorem test_ldReg : after (start 0x8010 [(1, 0x5A)]) (·.readReg 0) = some 0x5A := by decide
theorem test_orReg : after (start 0x8011 [(0, 0xF0), (1, 0x0F), (15, 1)]) (fun t => (t.readReg 0, t.readReg 15)) = some (0xFF, 1) := by decide
theorem test_andReg : after (start 0x8012 [(0, 0xF3), (1, 0x3C)]) (·.readReg 0) = some 0x30 := by decide
theorem test_xorReg : after (start 0x8013 [(0, 0xFF), (1, 0x0F)]) (·.readReg 0) = some 0xF0 := by decide
-- T-ALU-14, 18
theorem test_addReg_carry : after (start 0x8014 [(0, 0xFF), (1, 1)]) (fun t => (t.readReg 0, t.readReg 15)) = some (0, 1) := by decide
theorem test_addReg_flag_last : after (start 0x8F14 [(15, 0xFF), (1, 2)]) (·.readReg 15) = some 1 := by decide
-- T-ALU-22, 23
theorem test_subReg_borrow : after (start 0x8015 [(0, 3), (1, 5)]) (fun t => (t.readReg 0, t.readReg 15)) = some (0xFE, 0) := by decide
theorem test_subReg_equal : after (start 0x8015 [(0, 7), (1, 7)]) (fun t => (t.readReg 0, t.readReg 15)) = some (0, 1) := by decide
-- T-ALU-27, 28
theorem test_subnReg_borrow : after (start 0x8017 [(0, 5), (1, 3)]) (fun t => (t.readReg 0, t.readReg 15)) = some (0xFE, 0) := by decide
theorem test_subnReg : after (start 0x8017 [(0, 3), (1, 5)]) (fun t => (t.readReg 0, t.readReg 15)) = some (2, 1) := by decide
-- T-ALU-31, 37, 38, 43
theorem test_shr : after (start 0x8236 [(2, 5), (3, 0xEE)]) (fun t => (t.readReg 2, t.readReg 3, t.readReg 15)) = some (2, 0xEE, 1) := by decide
theorem test_shr_vf : after (start 0x8F06 [(15, 2)]) (·.readReg 15) = some 0 := by decide
theorem test_shl : after (start 0x823E [(2, 0x81), (3, 0xEE)]) (fun t => (t.readReg 2, t.readReg 3, t.readReg 15)) = some (2, 0xEE, 1) := by decide
theorem test_shl_vf : after (start 0x8F0E [(15, 0x41)]) (·.readReg 15) = some 0 := by decide
-- T-ALU-44, 46: the byte the host supplies
theorem test_rnd : after { start 0xC00F [] with randIn := [0xB7, 0x01] } (fun t => (t.readReg 0, t.randIn)) = some (0x07, [0x01]) := by decide

/-! ### Index register and memory -/

-- T-IDX-1, 4, 6, 8
theorem test_ldI : after (start 0xA22A []) (·.i) = some 0x22A := by decide
theorem test_addIndex_wraps : (({ State.reset with i := 0xFFE }).addIndex true 5).i = 3 ∧ (({ State.reset with i := 0xFFE }).addIndex true 5).readReg 15 = 1 := by decide
theorem test_addIndex_flag : (({ start 0 [(15, 1)] with i := 0xF00 }).addIndex true 0xFF).readReg 15 = 0
    ∧ (({ start 0 [(15, 1)] with i := 0xF00 }).addIndex false 0xFF).readReg 15 = 1 := by decide
theorem test_glyphAddr : glyphAddr 0x050 (hexDigit 0x0A) = 0x082 ∧ glyphAddr 0x1B0 (hexDigit 0xFF) = 0x1FB := by decide
-- T-IDX-13, 19
theorem test_bcd : after { start 0xF033 [(0, 156)] with i := 0x300 } (fun t => t.mem.readBlock 0x300 3) = some [1, 5, 6] := by decide
theorem test_bcd_out_of_range : after { start 0xF033 [(0, 99)] with i := 0xFFE } (fun t => (t.mem.readBlock 0xFFE 2, t.pc, t.fault)) = some ([0, 0], 0x202, some (.outOfBoundsAccess 0x1000)) := by decide
-- T-IDX-20, 23
theorem test_store : after { start 0xF255 [(0, 0x11), (1, 0x22), (2, 0x33), (3, 0x44)] with i := 0x400 } (fun t => (t.mem.readBlock 0x400 4, t.i)) = some ([0x11, 0x22, 0x33, 0], 0x400) := by decide
theorem test_store_out_of_range : after { start 0xFF55 [(0, 1)] with i := 0xFF1 } (fun t => (t.mem.read 0xFF1, t.run)) = some (0, .halted) := by decide
-- T-IDX-24, 26
theorem test_load : after { start 0xF265 [(3, 0x77)] with i := 0x400, mem := (start 0xF265 []).mem.writeBlock 0x400 [0x11, 0x22, 0x33] } (fun t => (t.readRegs 3, t.i)) = some ([0x11, 0x22, 0x33, 0x77], 0x400) := by decide
theorem test_load_out_of_range : after { start 0xF165 [(0, 1), (1, 2)] with i := 0xFFF } (fun t => (t.readRegs 1, t.run)) = some ([1, 2], .halted) := by decide

/-! ### Display -/

-- T-DRW-1
theorem test_cls : after { start 0x00E0 [] with disp := Vector.replicate 32 0xFF } (·.pixel 3 31) = some false := by decide
/-- The vectors' sprite state: bytes at 0x300, I = 0x300. -/
def sprite (w : Nat) (regs : List (Nibble × Byte)) (bytes : List Byte) : State :=
  { start w regs with i := 0x300, mem := (start w regs).mem.writeBlock 0x300 bytes }
-- T-DRW-4: the four leftmost bits are drawn, nothing wraps to column 0
theorem test_drw_clips : after (sprite 0xD011 [(0, 60)] [0xFF]) (fun t => ((List.range 64).filter fun c => (t.disp.get 0).getLsbD c, t.readReg 15)) = some ([60, 61, 62, 63], 0) := by decide
-- T-DRW-10, 14: rows wrap; a set pixel under a 1 bit is a collision
theorem test_drw_rows_wrap : after (sprite 0xD014 [(1, 30)] [0x80, 0x40, 0x20, 0x10]) (fun t => (t.pixel 0 30, t.pixel 1 31, t.pixel 2 0, t.pixel 3 1)) = some (true, true, true, true) := by decide
theorem test_drw_collision : after { sprite 0xD011 [] [0xC0] with disp := State.reset.disp.set 0 1 } (fun t => (t.pixel 0 0, t.pixel 1 0, t.readReg 15)) = some (false, true, 1) := by decide

/-! ### Keys and timers -/

-- T-KEY-1, 3, 4, 6, 7
theorem test_skp : after { start 0xE29E [(2, 5)] with keysDown := 0x0020 } (·.pc) = some 0x204 ∧ after { start 0xE29E [(2, 0x15)] with keysDown := 0xFFFF } (·.pc) = some 0x202 := by decide
theorem test_sknp : after (start 0xE2A1 [(2, 5)]) (·.pc) = some 0x204 ∧ after { start 0xE2A1 [(2, 0x15)] with keysDown := 0xFFFF } (·.pc) = some 0x204 := by decide
-- T-KEY-8, 10, 11
theorem test_ldKey : after (start 0xF30A [(3, 0x99)]) (fun t => (t.pc, t.run, t.waitX, t.readReg 3)) = some (0x202, .waitingForKey, 3, 0x99) := by decide
theorem test_keyPress : after (start 0xF30A [(3, 0x99)]) (fun t => ((t.keyPress 0xB).readReg 3, (t.keyPress 0xB).run, (t.keyPress 0xB).pc)) = some (0x0B, .running, 0x202) := by decide
theorem test_keyPress_lost : State.reset.keyPress 0xB = State.reset := by decide
-- T-KEY-15, 16, 17, 18, 20
theorem test_ldFromDt : after { start 0xF507 [] with dt := 0x1E } (fun t => (t.readReg 5, t.dt)) = some (0x1E, 0x1E) := by decide
theorem test_ldDt : after (start 0xF515 [(5, 0x3C)]) (·.dt) = some 0x3C := by decide
theorem test_ldSt : after (start 0xF518 [(5, 4)]) (fun t => (t.st, t.soundActive)) = some (4, true) := by decide
theorem test_tickTimers : ({ State.reset with dt := 2, st := 0 }).tickTimers.dt = 1 ∧ ({ State.reset with dt := 2, st := 0 }).tickTimers.st = 0 := by decide

/-! ### Unknown, the run state, the fetch, the host's operations -/

-- T-UNK-1, T-UNK-4
theorem test_unknown : (start 0x8AB8 []).surfaceUnknown .surfaceAndContinue 0x8AB8 = start 0x8AB8 []
    ∧ ((start 0xFFFF []).surfaceUnknown .halt 0xFFFF).fault = some (.unknownInstruction 0xFFFF) := by decide
theorem test_unknown_result : (start 0x8AB8 []).cycleResult = .unknownInstruction 0x8AB8 := by decide
-- T-FETCH-2, 3, 4, 5, 6
theorem test_fetch_bounds : after { State.reset with pc := 0xFFF } (fun t => (t.pc, t.fault)) = some (0xFFF, some (.outOfBoundsAccess 0x1000))
    ∧ after { State.reset with pc := 0x1000 } (fun t => (t.pc, t.run)) = some (0x1000, .halted) := by decide
theorem test_halted_result : ({ State.reset with run := .halted, fault := some (.stackUnderflow 0x200) }).cycleResult = .fatal (.stackUnderflow 0x200)
    ∧ ({ State.reset with run := .waitingForKey }).cycleResult = .blocked := by decide
theorem test_odd_pc : after (({ State.reset with pc := 0x203 }).withFetchWord 16 0x6123) (fun t => (t.readReg 1, t.pc)) = some (0x23, 0x205) := by decide
-- T-HOST-5, T-HOST-7
theorem test_loadImage : (State.reset.hostOp (.loadImage [0x12, 0x00])).mem.readBlock 0x200 2 = [0x12, 0x00] := by decide
theorem test_readByte_refused : State.reset.readByte 0x1000 = .error (.outOfBoundsAccess 0x1000) := by rfl
theorem test_hostReset : ({ start 0x6020 [(3, 7)] with run := .halted, pc := 0x300 }).hostReset.mem = (start 0x6020 []).mem
    ∧ ({ start 0x6020 [(3, 7)] with run := .halted, pc := 0x300 }).hostReset.readReg 3 = 0 := by decide
-- The opcode table's own numbering: row 6xkk, bits 11:8 = 0xA, bits 7:0 = 0x7F
theorem test_decodeTableWord : decodeTableWord 16 27263 = some (.ldImm 0xA 0x7F) := by decide

/-! ### Witnesses: states and operands that meet the hypotheses of each statement, at the edges of its clauses -/

theorem witness_DecodeOfEncodeIsTheInstruction : (Instr.unknown 0x8AB8).wellFormed = true ∧ (Instr.drw 15 15 15).wellFormed = true := by decide
theorem witness_UnknownIsEveryWordOutsideTheMap : decode 0x0000 = .unknown 0x0000 ∧ definedWord 0x0000 = false
    ∧ (⟨0xF0FF, 0xF065⟩ : Row) ∈ opcodeRows ∧ (⟨0xF0FF, 0xF065⟩ : Row).selects 0xFF65 = true := by decide
theorem witness_StepRunsTheDecodedInstruction : (start 0x6123 []).run = .running ∧ (start 0x6123 []).pc.toNat ≤ 0xFFE
    ∧ (0x6123 : Word).toNat = ((start 0x6123 []).mem.read 0x200).toNat * 256 + ((start 0x6123 []).mem.read 0x201).toNat := by decide
theorem witness_StepRunsTheDecodedInstruction_last : ({ State.reset with pc := 0xFFE }).run = .running ∧ ({ State.reset with pc := 0xFFE }).pc.toNat ≤ 0xFFE
    ∧ (0 : Word).toNat = (State.reset.mem.read 0xFFE).toNat * 256 + (State.reset.mem.read 0xFFF).toNat := by decide
theorem witness_FetchBeyondMemoryHalts : State.reset.run = .running ∧ 0xFFE < (0xFFF : Word).toNat ∧ 0xFFE < (0x10FE : Word).toNat := by decide
theorem witness_WaitingCycleChangesNothing : ({ State.reset with run := .waitingForKey }).run = .waitingForKey := by rfl
theorem witness_HaltedIsPermanentUntilReset : (State.reset.raise (.stackUnderflow 0x200)).run = .halted
    ∧ (State.reset.raise (.stackUnderflow 0x200)).fault = some (.stackUnderflow 0x200) ∧ HostOp.tickTimers ≠ .reset := by decide
theorem witness_ResultAgreesWithTheStateAfter_fatal : (start 0x00EE []).run = .running
    ∧ (start 0x00EE []).cycleResult = .fatal (.stackUnderflow 0x200) := by decide
theorem witness_ResultAgreesWithTheStateAfter_ok : (start 0xF30A []).cycleResult = .ok ⟨false, true, false⟩
    ∧ (start 0x00E0 []).cycleResult = .ok ⟨true, false, false⟩ ∧ (start 0xF518 []).cycleResult = .ok ⟨false, false, true⟩ := by decide
theorem witness_ParkedMachineStays : (start 0x1200 []).Parked := ⟨rfl, 0x1200, 0x200, by rfl, by rfl, by rfl⟩
theorem witness_ReturnPopsTheStack : 0 < (16 : Fin 17).val ∧ 0 < (1 : Fin 17).val ∧ State.reset.sp.val = 0 := by decide
theorem witness_CallPushesTheReturnAddress : State.reset.sp.val < 16 ∧ (15 : Fin 17).val < 16 ∧ (16 : Fin 17).val = 16 := by decide
theorem witness_CallThenReturnComesBack : ({ State.reset with sp := 15 }).sp.val < 16
    ∧ ∃ t, exec (.call 0x300) { State.reset with sp := 15 } = .next t ∧ t.stack = t.stack ∧ t.sp = t.sp := ⟨by decide, _, rfl, rfl, rfl⟩
theorem witness_RandomByteIsMasked : ({ State.reset with randIn := [0xB7] }).randIn = 0xB7 :: [] ∧ State.reset.randIn = [] := by decide
/-- `FX1E_VF_ON_OVERFLOW` is opaque: one of the two clauses of the statement applies, which one nothing here says. -/
theorem witness_AddIndexWraps : Config.fx1eVfOnOverflow = false ∨ Config.fx1eVfOnOverflow = true := by
  cases Config.fx1eVfOnOverflow <;> simp
theorem witness_BcdStoresTheDecimalDigits : State.reset.mem.wf = true ∧ (0xFFD : Addr).toNat + 2 ≤ 0xFFF := by decide
theorem witness_StoreWritesTheRegisterBlock : State.reset.mem.wf = true ∧ (0xFF0 : Addr).toNat + (15 : Nibble).toNat ≤ 0xFFF := by decide
theorem witness_LoadReadsTheRegisterBlock : (0xFFF : Addr).toNat + (0 : Nibble).toNat ≤ 0xFFF ∧ (15 : Nibble).toNat ≤ (15 : Nibble).toNat
    ∧ (0 : Nibble).toNat < (1 : Nibble).toNat := by decide
theorem witness_BlockOutOfRangeChangesNothing : (0xFF2 : Addr).toNat + (15 : Nibble).toNat > 0x1000 ∧ (0xFFE : Addr).toNat + 2 > 0xFFF
    ∧ (0xFF1 : Addr).toNat + (15 : Nibble).toNat > 0xFFF := by decide
theorem witness_StoreThenLoadRestoresRegisters : (start 0 []).mem.wf = true ∧ (start 0 []).i.toNat + (3 : Nibble).toNat ≤ 0xFFF
    ∧ ∃ t, exec (.store 3) (start 0 []) = .next t ∧ t.i = (start 0 []).i := ⟨by decide, by decide, _, rfl, rfl⟩
theorem witness_DrawInvertsTheCoveredPixels : (0xFF1 : Addr).toNat + (15 : Nibble).toNat ≤ 0x1000 ∧ (0xFFF : Addr).toNat + (0 : Nibble).toNat ≤ 0x1000 := by decide
/-- Sprite bit 1 on a set pixel: the left column of the byte 0x80 at (0, 0), where the display is set. -/
theorem witness_DrawReportsTheCollision : ∃ px py,
    ({ sprite 0xD011 [] [0x80] with disp := Vector.replicate 32 1 }).SpriteCovers 0 1 1 px py
    ∧ ({ sprite 0xD011 [] [0x80] with disp := Vector.replicate 32 1 }).pixel px py = true :=
  ⟨0, 0, ⟨0, 0, by decide, by decide, by decide, by decide, by decide⟩, by decide⟩
/-- No sprite bit 1 at all: a sprite of no rows. -/
theorem witness_DrawReportsTheCollision_none : (¬ ∃ px py, State.reset.SpriteCovers 0 1 0 px py ∧ State.reset.pixel px py = true)
    ∧ State.reset.i.toNat + (0 : Nibble).toNat ≤ 0x1000 ∧ ∃ t, exec (.drw 0 1 0) State.reset = .next t :=
  ⟨fun ⟨_, _, ⟨_, _, h, _⟩, _⟩ => Nat.not_lt_zero _ h, by decide, _, rfl⟩
theorem witness_DrawingTwiceRestoresTheDisplay : (0 : Nibble) ≠ 0xF ∧ (1 : Nibble) ≠ 0xF ∧ (sprite 0xD011 [] [0x80]).i.toNat + (1 : Nibble).toNat ≤ 0x1000
    ∧ ∃ t, exec (.drw 0 1 1) (sprite 0xD011 [] [0x80]) = .next t := ⟨by decide, by decide, by decide, _, rfl⟩
theorem witness_KeySkipsSampleTheKey : ((start 0 [(2, 15)]).readReg 2).toNat = (15 : Fin 16).val ∧ 15 < ((start 0 [(2, 16)]).readReg 2).toNat := by decide
theorem witness_KeyWaitEndsWithThePress : ({ State.reset with run := .waitingForKey }).run = .waitingForKey ∧ State.reset.run ≠ .waitingForKey := by decide
/-- `UNKNOWN_POLICY` is opaque: one of the two clauses of the statement applies, which one nothing here says. -/
theorem witness_UnknownChangesNoState : Config.unknownPolicy = .surfaceAndContinue ∨ Config.unknownPolicy = .halt := by
  cases Config.unknownPolicy <;> simp
theorem witness_UnknownWordsAreSurfaced : (start 0x8AB8 []).run = .running ∧ (start 0x8AB8 []).fetch = .ok 0x8AB8 ∧ definedWord 0x8AB8 = false :=
  ⟨by decide, by rfl, by decide⟩
theorem witness_UnknownWordsAreSurfaced_ok : (start 0x6020 []).fetch = .ok 0x6020
    ∧ (start 0x6020 []).cycleResult = .ok ⟨false, false, false⟩ := ⟨by rfl, by decide⟩
theorem witness_DisplayWrittenOnlyByClearAndDraw : (∃ t, exec (.ldSt 0) State.reset = .next t) ∧ Instr.ldSt 0 ≠ .cls
    ∧ (∀ x y n, Instr.ldSt 0 ≠ .drw x y n) ∧ HostOp.tickTimers ≠ .reset :=
  ⟨⟨_, rfl⟩, by decide, (by simp), by decide⟩
theorem witness_TimersWrittenOnlyByTheirInstructions : (∃ t, exec (.ldSt 0) State.reset = .next t) ∧ (∀ x, Instr.ldSt 0 ≠ .ldDt x)
    ∧ (∀ x, Instr.ldDt 0 ≠ .ldSt x) := ⟨⟨_, rfl⟩, (by simp), (by simp)⟩
theorem witness_StackAndIndexHaveTheirOwnWriters : (∃ t, exec (.jp 0) State.reset = .next t) ∧ Instr.jp 0 ≠ .ret ∧ (∀ n, Instr.jp 0 ≠ .call n)
    ∧ (∀ n, Instr.jp 0 ≠ .ldI n) ∧ (∀ x, Instr.jp 0 ≠ .addI x) ∧ (∀ x, Instr.jp 0 ≠ .ldFont x) :=
  ⟨⟨_, rfl⟩, by decide, (by simp), (by simp), (by simp), (by simp)⟩
theorem witness_MemoryWrittenOnlyInsideTheBlock : (∃ t, exec (.load 0) State.reset = .next t) ∧ (∀ x, Instr.load 0 ≠ .bcd x) ∧ (∀ x, Instr.load 0 ≠ .store x)
    ∧ ¬ (0x300 ≤ 0x303 ∧ 0x303 < (0x300 : Addr).toNat + 3) ∧ ¬ (0x300 ≤ 0x301 ∧ 0x301 ≤ (0x300 : Addr).toNat + (0 : Nibble).toNat) :=
  ⟨⟨_, rfl⟩, (by simp), (by simp), by decide, by decide⟩
theorem witness_OnlyControlTransfersMovePC : ∃ t, exec (.seImm 0 0) State.reset = .next t ∧ t.pc ≠ State.reset.pc := ⟨_, rfl, by decide⟩
theorem witness_OnlyTheTaxonomyHalts : State.reset.run ≠ .halted ∧ ∃ t, exec .ret State.reset = .next t ∧ t.run = .halted := ⟨by decide, _, rfl, by decide⟩
theorem witness_FlagWrittenOnlyByItsInstructions : ∃ t, exec (.addReg 0 1) (start 0 [(0, 0xFF), (1, 1)]) = .next t
    ∧ t.readReg 0xF ≠ (start 0 [(0, 0xFF), (1, 1)]).readReg 0xF := ⟨_, rfl, by decide⟩
/-- A machine with one call made, in the state the invariant describes. -/
def called : State := { start 0x1200 [] with sp := 1, stack := State.reset.stack.set 0 0x202 }
theorem witness_CycleKeepsTheInvariant : called.Inv ∧ ∃ t, step called = .next t :=
  ⟨⟨by decide, by decide, by decide, by decide⟩, called, by rfl⟩
theorem witness_HostOperationsKeepTheInvariant : called.Inv := ⟨by decide, by decide, by decide, by decide⟩
theorem witness_KeysAreSampledOnlyByKeySkips : (∀ x, Instr.ldKey 0 ≠ .skp x) ∧ (∀ x, Instr.ldKey 0 ≠ .sknp x)
    ∧ ∃ t, exec (.ldKey 0) State.reset = .next t := ⟨(by simp), (by simp), _, rfl⟩
theorem witness_RandomByteIsSampledOnlyByRnd : (∀ x kk, Instr.ldImm 0 0 ≠ .rnd x kk) ∧ ∃ t, exec (.ldImm 0 0) State.reset = .next t :=
  ⟨(by simp), _, rfl⟩
theorem witness_DeadStackEntriesAreUnreadable : (∀ k : Fin 16, k.val < called.sp.val → (called.stack.set 1 0x777)[k.val] = called.stack[k.val])
    ∧ ∃ t, exec .ret called = .next t := ⟨by decide, _, rfl⟩
theorem witness_LoadImageCopiesTheImage : State.reset.mem.wf = true ∧ (List.replicate 3584 (0xFF : Byte)).length ≤ 3584
    ∧ (List.replicate 3585 (0xFF : Byte)).length > 3584 := ⟨by decide, Nat.le_of_eq List.length_replicate, by rw [List.length_replicate]; decide⟩
theorem witness_HostByteAccessIsExact : State.reset.mem.wf = true ∧ 0xFFF ≤ 0xFFF ∧ 0xFFF < 0x1000 := by decide
theorem witness_WrittenWordIsTheOneExecuted : State.reset.mem.wf = true ∧ State.reset.run = .running ∧ State.reset.pc.toNat ≤ 0xFFE := by decide

end Sys2Proof.Tests
end

/-! PROOFS. Everything that executing one instruction can do, said once (`exec_effect`): the frame statements and the
invariant are then case splits over `Effect`, and no later proof walks through the arms of `exec` again. -/

namespace Sys2Proof

/-- The conditional skips (R155 to R158, R241, R242). -/
def Instr.IsSkip (i : Instr) : Prop :=
  (∃ x kk, i = .seImm x kk ∨ i = .sneImm x kk) ∨ (∃ x y, i = .seReg x y ∨ i = .sneReg x y) ∨
    ∃ x, i = .skp x ∨ i = .sknp x

/-- The instructions that write Vx and nothing else (R173 to R176, R182, R183, R244). -/
def Instr.WritesOnly (i : Instr) (x : Nibble) : Prop :=
  (∃ kk, i = .ldImm x kk ∨ i = .addImm x kk) ∨
    (∃ y, i = .ldReg x y ∨ i = .orReg x y ∨ i = .andReg x y ∨ i = .xorReg x y) ∨ i = .ldFromDt x

/-- The ALU instructions that write a result to Vx and then a flag to VF (R177 to R181). -/
def Instr.WritesResultFlag (i : Instr) (x : Nibble) : Prop :=
  ∃ y, i = .addReg x y ∨ i = .subReg x y ∨ i = .shr x y ∨ i = .subnReg x y ∨ i = .shl x y

/-- The writers of I (R201, R202, R203). -/
def Instr.WritesIndex (i : Instr) : Prop := (∃ nnn, i = .ldI nnn) ∨ ∃ x, i = .addI x ∨ i = .ldFont x

end Sys2Proof

namespace Sys2Proof.Machine

/-! ### 00EE and 2nnn on both sides of their check (R151, R153) -/

theorem exec_ret_of_pos (s : State) (h : 0 < s.sp.val) :
    exec .ret s = .next { s with sp := ⟨s.sp.val - 1, by omega⟩, pc := s.stack[s.sp.val - 1]'(by omega) } := by
  simp only [exec, execRet, s.pop_of_pos h]
  rfl

theorem exec_ret_of_empty (s : State) (h : s.sp.val = 0) :
    exec .ret s = .next (s.raise (.stackUnderflow s.instrAddr)) := by
  simp only [exec, execRet, s.pop_of_empty h]

theorem exec_call_of_lt (nnn : Addr) (s : State) (h : s.sp.val < 16) :
    exec (.call nnn) s = .next { s with
      stack := s.stack.set s.sp.val s.pc h, sp := ⟨s.sp.val + 1, by omega⟩, pc := absTarget nnn } := by
  simp only [exec, execCall, s.push_of_lt s.pc h]
  rfl

theorem exec_call_of_full (nnn : Addr) (s : State) (h : s.sp.val = 16) :
    exec (.call nnn) s = .next (s.raise (.stackOverflow s.instrAddr)) := by
  simp only [exec, execCall, s.push_of_full s.pc h]

/-! ### The targets of the jumps (R22) -/

theorem toNat_absTarget_le (nnn : Addr) : (absTarget nnn).toNat ≤ 0xFFF := by
  simp only [absTarget, BitVec.toNat_setWidth]
  omega

theorem toNat_indexedTarget_le (nnn : Addr) (v0 : Byte) : (indexedTarget nnn v0).toNat ≤ 0x10FE := by
  simp only [indexedTarget, BitVec.toNat_add, BitVec.toNat_setWidth]
  omega

/-! ### The effects -/

/-- The check of i fails in s, so that executing it raises a condition (R69, R151, R153, R268). -/
def State.Raises (s : State) : Instr → Prop
  | .ret => s.sp.val = 0
  | .call _ => s.sp.val = 16
  | .drw _ _ n => 4096 < s.i.toNat + n.toNat
  | .bcd _ => 4096 < s.i.toNat + 3
  | .store x | .load x => 4096 < s.i.toNat + (x.toNat + 1)
  | .unknown _ => Config.unknownPolicy = .halt
  | _ => False

/-- `Effect s i t`: executing i in s (PC advanced, R123) can leave t. One constructor per kind of effect, with the check
that guards it; `exec_effect` ties it to `exec`. -/
inductive Effect (s : State) : Instr → State → Prop
  | raise (i : Instr) (f : Fault) (hi : s.Raises i) : Effect s i (s.raise f)
  | cls : Effect s .cls { s with disp := Display.clear }
  | ret (h : 0 < s.sp.val) :
      Effect s .ret { s with sp := ⟨s.sp.val - 1, by omega⟩, pc := s.stack[s.sp.val - 1]'(by omega) }
  | call (nnn : Addr) (h : s.sp.val < 16) :
      Effect s (.call nnn) { s with
        stack := s.stack.set s.sp.val s.pc h, sp := ⟨s.sp.val + 1, by omega⟩, pc := absTarget nnn }
  | jump (i : Instr) (nnn : Addr) (a : Word) (hi : i = .jp nnn ∨ i = .jpV0 nnn) (ha : a.toNat ≤ 0x10FE) :
      Effect s i (s.setPc a)
  | skip (i : Instr) (c : Bool) (hi : i.IsSkip) : Effect s i (s.skipIf c)
  | writeReg (i : Instr) (x : Nibble) (b : Byte) (hi : i.WritesOnly x) : Effect s i (s.writeReg x b)
  | resultFlag (i : Instr) (x : Nibble) (r : Byte) (c : Bool) (hi : i.WritesResultFlag x) :
      Effect s i (s.writeResultFlag x r c)
  | rnd (x : Nibble) (kk : Byte) : Effect s (.rnd x kk) (s.consumeRand.writeReg x (s.nextRand &&& kk))
  | draw (x y n : Nibble) (d : Display) (c : Bool) : Effect s (.drw x y n) ({ s with disp := d }.setFlag c)
  | index (i : Instr) (a : Addr) (hi : i.WritesIndex) : Effect s i (s.setI a)
  | indexFlag (x : Nibble) (a : Addr) (c : Bool) (hvf : Config.fx1eVfOnOverflow = true) :
      Effect s (.addI x) ((s.setI a).setFlag c)
  | storeBlock (i : Instr) (bs : List Byte) (hi : (∃ x, i = .bcd x) ∨ ∃ x, i = .store x)
      (hbs : s.i.toNat + bs.length ≤ 4096) : Effect s i { s with mem := s.mem.writeBlock s.i.toNat bs }
  | loadBlock (x : Nibble) (bs : List Byte) (hbs : bs.length = x.toNat + 1) : Effect s (.load x) (s.writeRegs bs)
  | awaitKey (x : Nibble) : Effect s (.ldKey x) { s with waitX := x, run := .waitingForKey }
  | setTimer (i : Instr) (dt st : Byte) (hi : ∃ x, i = .ldDt x ∨ i = .ldSt x) : Effect s i { s with dt := dt, st := st }
  | unknown (w : Word) : Effect s (.unknown w) s

/-- The range check: the instruction's own effect where the block at I is in memory, the condition otherwise (R69). -/
theorem Effect.whenInRange {s t : State} {i : Instr} {len : Nat}
    (hin : s.i.toNat + len ≤ 4096 → Effect s i t) (hout : 4096 < s.i.toNat + len → s.Raises i) :
    Effect s i (s.whenInRange len t) := by
  rw [State.whenInRange_eq]
  split
  · next h => exact hin h
  · next h => exact .raise i _ (hout (by omega))

theorem Effect.addIndex (s : State) (x : Nibble) (a : Byte) :
    Effect s (.addI x) (s.addIndex Config.fx1eVfOnOverflow a) := by
  unfold State.addIndex
  split
  · next h => exact .indexFlag x _ _ h
  · exact .index _ _ (.inr ⟨x, .inl rfl⟩)

theorem Effect.surfaceUnknown (s : State) (w : Word) :
    Effect s (.unknown w) (s.surfaceUnknown Config.unknownPolicy w) := by
  cases h : Config.unknownPolicy with
  | surfaceAndContinue => exact .unknown w
  | halt => exact .raise _ _ h

/-- Every instruction answers a next state, by one of the effects. -/
theorem exists_effect (i : Instr) (s : State) : ∃ t, exec i s = .next t ∧ Effect s i t := by
  cases i with
  | ret =>
    rcases Nat.eq_zero_or_pos s.sp.val with h | h
    · exact ⟨_, exec_ret_of_empty s h, .raise _ _ h⟩
    · exact ⟨_, exec_ret_of_pos s h, .ret h⟩
  | call nnn =>
    rcases Nat.lt_succ_iff_lt_or_eq.mp s.sp.isLt with h | h
    · exact ⟨_, exec_call_of_lt nnn s h, .call nnn h⟩
    · exact ⟨_, exec_call_of_full nnn s h, .raise _ _ h⟩
  | cls => exact ⟨_, rfl, .cls⟩
  | jp nnn => exact ⟨_, rfl, .jump _ nnn _ (.inl rfl) (Nat.le_trans (toNat_absTarget_le nnn) (by decide))⟩
  | jpV0 nnn => exact ⟨_, rfl, .jump _ nnn _ (.inr rfl) (toNat_indexedTarget_le nnn _)⟩
  | seImm | sneImm | seReg | sneReg | skp | sknp => exact ⟨_, rfl, .skip _ _ (by simp [Instr.IsSkip])⟩
  | ldImm x | addImm x | ldReg x | orReg x | andReg x | xorReg x | ldFromDt x =>
    exact ⟨_, rfl, .writeReg _ x _ (by simp [Instr.WritesOnly])⟩
  | addReg x | subReg x | shr x | subnReg x | shl x =>
    exact ⟨_, rfl, .resultFlag _ x _ _ (by simp [Instr.WritesResultFlag])⟩
  | rnd x kk => exact ⟨_, rfl, .rnd x kk⟩
  | drw x y n => exact ⟨_, rfl, .whenInRange (fun _ => .draw x y n _ _) id⟩
  | ldI | ldFont => exact ⟨_, rfl, .index _ _ (by simp [Instr.WritesIndex])⟩
  | addI x => exact ⟨_, rfl, .addIndex s x _⟩
  | bcd x => exact ⟨_, rfl, .whenInRange (fun h => .storeBlock _ _ (.inl ⟨x, rfl⟩) h) id⟩
  | store x =>
    exact ⟨_, rfl, .whenInRange (fun h => .storeBlock _ _ (.inr ⟨x, rfl⟩) (by rwa [s.length_readRegs])) id⟩
  | load x => exact ⟨_, rfl, .whenInRange (fun _ => .loadBlock x _ (s.mem.length_readBlock _ _)) id⟩
  | ldKey x => exact ⟨_, rfl, .awaitKey x⟩
  | ldDt x => exact ⟨_, rfl, .setTimer _ _ s.st ⟨x, .inl rfl⟩⟩
  | ldSt x => exact ⟨_, rfl, .setTimer _ s.dt _ ⟨x, .inr rfl⟩⟩
  | unknown w => exact ⟨_, rfl, .surfaceUnknown s w⟩

/-- A state that executing i leaves is left by one of the effects. -/
theorem exec_effect {i : Instr} {s t : State} (h : exec i s = .next t) : Effect s i t := by
  obtain ⟨t', h', he⟩ := exists_effect i s
  cases h.symm.trans h'
  exact he

end Sys2Proof.Machine

/-! PROOFS. The invariant: one rule per way a state can change, then reset, every cycle and every host operation. -/

namespace Sys2Proof.Machine

variable {s t : State}

/-! ### Rules for the invariant -/

/-- The invariant sees memory, PC, the stack with its pointer, RUN and FAULT only. -/
theorem State.Inv.congr (hs : s.Inv) (hmem : t.mem = s.mem := by rfl) (hpc : t.pc = s.pc := by rfl)
    (hstack : t.stack = s.stack := by rfl) (hsp : t.sp = s.sp := by rfl) (hrun : t.run = s.run := by rfl)
    (hfault : t.fault = s.fault := by rfl) : t.Inv where
  memWf := hmem ▸ hs.memWf
  pcBound := hpc ▸ hs.pcBound
  stackBound := by simpa only [hstack, hsp] using hs.stackBound
  haltedIffFault := by simpa only [hrun, hfault] using hs.haltedIffFault

theorem State.Inv.setPc (hs : s.Inv) {a : Word} (ha : a.toNat ≤ 0x10FE) : (s.setPc a).Inv :=
  ⟨hs.memWf, ha, hs.stackBound, hs.haltedIffFault⟩

theorem State.Inv.setMem (hs : s.Inv) {m : Memory} (hm : m.wf = true) : { s with mem := m }.Inv :=
  ⟨hm, hs.pcBound, hs.stackBound, hs.haltedIffFault⟩

theorem State.Inv.raise (hs : s.Inv) (f : Fault) : (s.raise f).Inv :=
  ⟨hs.memWf, hs.pcBound, hs.stackBound, by simp⟩

/-- A machine that is not halted may go on in any run state but Halted: it has no record (R31). -/
theorem State.Inv.setRun (hs : s.Inv) (hrun : s.run ≠ .halted) {r : RunState} (hr : r ≠ .halted) :
    { s with run := r }.Inv :=
  ⟨hs.memWf, hs.pcBound, hs.stackBound, iff_of_false hr (mt hs.haltedIffFault.mpr hrun)⟩

theorem State.Inv.pop (hs : s.Inv) (h : 0 < s.sp.val) :
    { s with sp := ⟨s.sp.val - 1, by omega⟩, pc := s.stack[s.sp.val - 1]'(by omega) }.Inv where
  memWf := hs.memWf
  pcBound := Nat.le_trans (hs.stackBound ⟨s.sp.val - 1, by omega⟩ (Nat.sub_one_lt_of_lt h)) (by decide)
  stackBound k hk := hs.stackBound k (Nat.lt_of_lt_of_le hk (Nat.sub_le _ _))
  haltedIffFault := hs.haltedIffFault

/-- A pushed return address is one a fetch can leave: at most 0x1000 (R22, R24). -/
theorem State.Inv.push (hs : s.Inv) (h : s.sp.val < 16) {a b : Word} (ha : a.toNat ≤ 0x1000) (hb : b.toNat ≤ 0x10FE) :
    { s with stack := s.stack.set s.sp.val a h, sp := ⟨s.sp.val + 1, by omega⟩, pc := b }.Inv where
  memWf := hs.memWf
  pcBound := hb
  stackBound k hk := by
    have hk : k.val < s.sp.val + 1 := hk
    simp only [Vector.getElem_set]
    split
    · exact ha
    · exact hs.stackBound k (by omega)
  haltedIffFault := hs.haltedIffFault

theorem State.Inv.writeBlock (hs : s.Inv) {base : Nat} {bs : List Byte} (h : base + bs.length ≤ 4096) :
    { s with mem := s.mem.writeBlock base bs }.Inv :=
  hs.setMem (Memory.wf_writeBlock bs s.mem base h hs.memWf)

/-! ### The cycle -/

/-- A fetch leaves PC at most 0x1000 (R22, R122, R123). -/
theorem State.toNat_pc_add_two_le {w : Word} (h : s.fetch = .ok w) : (s.pc + 2).toNat ≤ 0x1000 := by
  have hpc := ((s.fetch_ok_iff w).mp h).1
  bv_omega

/-- Every effect keeps the invariant, from a running state whose PC a fetch has left. -/
theorem Effect.keeps_inv {i : Instr} (he : Effect s i t) (hs : s.Inv) (hrun : s.run = .running)
    (hpc : s.pc.toNat ≤ 0x1000) : t.Inv := by
  cases he with
  | raise _ f => exact hs.raise f
  | ret h => exact hs.pop h
  | call nnn h => exact hs.push h hpc (Nat.le_trans (toNat_absTarget_le nnn) (by decide))
  | jump _ nnn a _ ha => exact hs.setPc ha
  | skip _ c =>
    cases c with
    | false => exact hs
    | true => exact hs.setPc (by bv_omega)
  | storeBlock _ bs _ hbs => exact hs.writeBlock hbs
  | awaitKey x => exact (hs.setRun (by simp [hrun]) (r := .waitingForKey) (by decide)).congr
  | unknown => exact hs
  | cls | writeReg | resultFlag | rnd | draw | index | indexFlag | loadBlock | setTimer => exact hs.congr

/-- Settles O52, from `step_cases` and `Effect.keeps_inv`. -/
theorem cycleKeepsTheInvariant : Obligations.CycleKeepsTheInvariant := by
  intro s t hs h
  rcases step_cases s with ⟨_, hst⟩ | ⟨_, f, _, hst⟩ | ⟨_, _, hst⟩ | ⟨_, f, _, hst⟩ | ⟨hrun, w, hw, hst⟩ <;>
    rw [hst] at h
  · cases h; exact hs
  · cases h
  · cases h; exact hs
  · cases h; exact hs.raise f
  · have hpc := State.toNat_pc_add_two_le hw
    exact (exec_effect h).keeps_inv (hs.setPc (Nat.le_trans hpc (by decide))) hrun hpc

/-! ### Reset and the host's operations -/

/-- Settles O51. -/
theorem resetStateHasTheInvariant : Obligations.ResetStateHasTheInvariant where
  memWf := rfl
  pcBound := by decide
  stackBound _ h := absurd h (Nat.not_lt_zero _)
  haltedIffFault := by decide

theorem State.Inv.hostReset (hs : s.Inv) : s.hostReset.Inv where
  memWf := hs.memWf
  pcBound := resetStateHasTheInvariant.pcBound
  stackBound _ h := absurd h (Nat.not_lt_zero _)
  haltedIffFault := resetStateHasTheInvariant.haltedIffFault

theorem State.Inv.keyPress (hs : s.Inv) (k : Nibble) : (s.keyPress k).Inv := by
  unfold State.keyPress
  split
  · next hrun => exact (hs.setRun (by simp [hrun]) (r := .running) (by decide)).congr
  · exact hs

theorem State.Inv.loadImage (hs : s.Inv) (bytes : List Byte) : (s.hostOp (.loadImage bytes)).Inv := by
  simp only [State.hostOp, State.loadImage]
  split
  · next h => split at h <;> cases h; exact hs.writeBlock ‹_›
  · exact hs

theorem State.Inv.writeByte (hs : s.Inv) (addr : Nat) (b : Byte) : (s.hostOp (.writeByte addr b)).Inv := by
  simp only [State.hostOp, State.writeByte]
  split
  · next h => split at h <;> cases h; exact hs.setMem (Memory.wf_write s.mem addr b ‹_› hs.memWf)
  · exact hs

/-- Settles O53, by the operation. -/
theorem hostOperationsKeepTheInvariant : Obligations.HostOperationsKeepTheInvariant := by
  intro op s hs
  cases op with
  | reset => exact hs.hostReset
  | loadImage bytes => exact hs.loadImage bytes
  | writeByte addr b => exact hs.writeByte addr b
  | keyPress k => exact hs.keyPress k
  | readByte | isBlocked => exact hs
  | tickTimers | setKeysDown | supplyRand => exact hs.congr

end Sys2Proof.Machine

/-! PROOFS. What only some instructions may do: the frame of each effect, field by field. -/

namespace Sys2Proof.Machine

variable {s t : State} {i : Instr}

/-- The stack has two writers (R24, R151, R153). -/
theorem Effect.stack_sp (he : Effect s i t) (hret : i ≠ .ret) (hcall : ∀ nnn, i ≠ .call nnn) :
    t.stack = s.stack ∧ t.sp = s.sp := by
  cases he with
  | ret => exact absurd rfl hret
  | call nnn => exact absurd rfl (hcall nnn)
  | skip => simp
  | raise | cls | jump | writeReg | resultFlag | rnd | draw | index | indexFlag | storeBlock | loadBlock | awaitKey
  | setTimer | unknown => exact ⟨rfl, rfl⟩

/-- I has the writers of R201, R202 and R203. -/
theorem Effect.i_eq (he : Effect s i t) (hi : ¬ i.WritesIndex) : t.i = s.i := by
  cases he with
  | index _ a h => exact absurd h hi
  | indexFlag x => exact absurd (.inr ⟨x, .inl rfl⟩) hi
  | skip => simp
  | raise | cls | ret | call | jump | writeReg | resultFlag | rnd | draw | storeBlock | loadBlock | awaitKey
  | setTimer | unknown => rfl

/-- Settles O46, from the frames of the stack and of I. -/
theorem stackAndIndexHaveTheirOwnWriters : Obligations.StackAndIndexHaveTheirOwnWriters := by
  intro i s t h
  refine ⟨(exec_effect h).stack_sp, fun hldI haddI hldFont => (exec_effect h).i_eq ?_⟩
  rintro (⟨nnn, rfl⟩ | ⟨x, rfl | rfl⟩)
  · exact hldI nnn rfl
  · exact haddI x rfl
  · exact hldFont x rfl

/-- A skip that moves PC moves it by 2 (R150). -/
theorem State.skipIf_pc_of_ne {c : Bool} (h : (s.skipIf c).pc ≠ s.pc) : (s.skipIf c).pc = s.pc + 2 := by
  cases c with
  | false => exact absurd rfl h
  | true => rfl

/-- Settles O48, by the effect. -/
theorem onlyControlTransfersMovePC : Obligations.OnlyControlTransfersMovePC := by
  intro i s t h hpc
  cases exec_effect h with
  | ret => exact .inl rfl
  | call nnn => exact .inr (.inl ⟨nnn, .inr (.inl rfl)⟩)
  | jump _ nnn a hi => exact .inr (.inl ⟨nnn, hi.imp_right .inr⟩)
  | skip _ c hi => exact .inr (.inr ⟨State.skipIf_pc_of_ne hpc, hi⟩)
  | raise | cls | writeReg | resultFlag | rnd | draw | index | indexFlag | storeBlock | loadBlock | awaitKey
  | setTimer | unknown => exact absurd rfl hpc

/-! ### The writers of VF (R21) -/

theorem flagByte_eq_zero_or_one (c : Bool) : flagByte c = 0 ∨ flagByte c = 1 := by
  cases c with
  | false => exact .inl rfl
  | true => exact .inr rfl

theorem State.readReg_regF_setFlag (s : State) (c : Bool) :
    (s.setFlag c).readReg 0xF = 0 ∨ (s.setFlag c).readReg 0xF = 1 := by
  simpa using flagByte_eq_zero_or_one c

/-- A write to Vx that VF shows is a write to VF. -/
theorem State.eq_of_readReg_writeReg_ne {x r : Nibble} {b : Byte} (h : (s.writeReg x b).readReg r ≠ s.readReg r) :
    x = r := by
  refine Decidable.byContradiction fun hne => h ?_
  rw [State.readReg_writeReg, if_neg (Ne.symm hne)]

/-- A block load that changes VF has all sixteen registers (R206). -/
theorem State.eq_of_readReg_writeRegs_ne {x : Nibble} {bs : List Byte} (hbs : bs.length = x.toNat + 1)
    (h : (s.writeRegs bs).readReg 0xF ≠ s.readReg 0xF) : x = 0xF := by
  have hx := x.isLt
  refine Decidable.byContradiction fun hne => h ?_
  rw [State.readReg_writeRegs _ _ _ (by omega), if_neg]
  bv_omega

/-- Settles O50, by the effect. -/
theorem flagWrittenOnlyByItsInstructions : Obligations.FlagWrittenOnlyByItsInstructions := by
  intro i s t h hvf
  cases exec_effect h with
  | resultFlag _ x r c hi => exact .inl ⟨State.readReg_regF_setFlag _ c, .inl ⟨x, hi⟩⟩
  | draw x y n d c => exact .inl ⟨State.readReg_regF_setFlag _ c, .inr (.inl ⟨x, y, n, rfl⟩)⟩
  | indexFlag x a c hcfg => exact .inl ⟨State.readReg_regF_setFlag _ c, .inr (.inr ⟨⟨x, rfl⟩, hcfg⟩)⟩
  | writeReg _ x b hi =>
    obtain rfl := State.eq_of_readReg_writeReg_ne hvf
    rcases hi with ⟨kk, hi⟩ | hi | hi
    · exact .inr (.inl ⟨kk, hi.imp_right .inl⟩)
    · exact .inr (.inr (.inl hi))
    · exact .inr (.inr (.inr (.inl hi)))
  | rnd x kk =>
    obtain rfl := State.eq_of_readReg_writeReg_ne (s := s.consumeRand) hvf
    exact .inr (.inl ⟨kk, .inr (.inr rfl)⟩)
  | loadBlock x bs hbs =>
    obtain rfl := State.eq_of_readReg_writeRegs_ne hbs hvf
    exact .inr (.inr (.inr (.inr rfl)))
  | skip => exact absurd (State.readReg_skipIf _ _ _) hvf
  | raise | cls | ret | call | jump | index | storeBlock | awaitKey | setTimer | unknown => exact absurd rfl hvf

end Sys2Proof.Machine

/-! PROOFS. What an instruction cannot learn: executing it commutes with any change of the inputs and of the stack's entries
that it does not read. -/

namespace Sys2Proof.Machine

/-- The state with its inputs and its stack entries replaced by functions of themselves (R33, R24). -/
def State.mapUnread (s : State) (keys : BitVec 16 → BitVec 16) (bytes : List Byte → List Byte) (draws : Nat → Nat)
    (stack : Vector Word 16 → Vector Word 16) : State :=
  { s with keysDown := keys s.keysDown, randIn := bytes s.randIn, draws := draws s.draws, stack := stack s.stack }

section

variable (s : State) (keys : BitVec 16 → BitVec 16) (bytes : List Byte → List Byte) (draws : Nat → Nat)
  (stack : Vector Word 16 → Vector Word 16)

theorem State.skipIf_mapUnread (c : Bool) :
    (s.mapUnread keys bytes draws stack).skipIf c = (s.skipIf c).mapUnread keys bytes draws stack := by
  cases c with
  | false => rfl
  | true => rfl

theorem State.whenInRange_mapUnread (len : Nat) {t t' : State} (ht : t' = t.mapUnread keys bytes draws stack) :
    (s.mapUnread keys bytes draws stack).whenInRange len t' =
      (s.whenInRange len t).mapUnread keys bytes draws stack := by
  have hi : (s.mapUnread keys bytes draws stack).i = s.i := rfl
  rw [State.whenInRange_eq, State.whenInRange_eq, hi, ht]
  split
  · rfl
  · rfl

theorem State.addIndex_mapUnread (vf : Bool) (a : Byte) :
    (s.mapUnread keys bytes draws stack).addIndex vf a = (s.addIndex vf a).mapUnread keys bytes draws stack := by
  cases vf with
  | false => rfl
  | true => rfl

theorem State.surfaceUnknown_mapUnread (p : UnknownPolicy) (w : Word) :
    (s.mapUnread keys bytes draws stack).surfaceUnknown p w =
      (s.surfaceUnknown p w).mapUnread keys bytes draws stack := by
  cases p with
  | surfaceAndContinue => rfl
  | halt => rfl

end

/-- 00EE takes no notice of the inputs. -/
theorem exec_ret_mapUnread (s : State) (keys bytes draws) :
    ∃ t, exec .ret s = .next t ∧
      exec .ret (s.mapUnread keys bytes draws id) = .next (t.mapUnread keys bytes draws id) := by
  rcases Nat.eq_zero_or_pos s.sp.val with h | h
  · exact ⟨_, exec_ret_of_empty s h, exec_ret_of_empty (s.mapUnread keys bytes draws id) h⟩
  · exact ⟨_, exec_ret_of_pos s h, exec_ret_of_pos (s.mapUnread keys bytes draws id) h⟩

/-- 2nnn takes no notice of the inputs. -/
theorem exec_call_mapUnread (nnn : Addr) (s : State) (keys bytes draws) :
    ∃ t, exec (.call nnn) s = .next t ∧
      exec (.call nnn) (s.mapUnread keys bytes draws id) = .next (t.mapUnread keys bytes draws id) := by
  rcases Nat.lt_succ_iff_lt_or_eq.mp s.sp.isLt with h | h
  · exact ⟨_, exec_call_of_lt nnn s h, exec_call_of_lt nnn (s.mapUnread keys bytes draws id) h⟩
  · exact ⟨_, exec_call_of_full nnn s h, exec_call_of_full nnn (s.mapUnread keys bytes draws id) h⟩

/-- An instruction does the same whatever the keys, the random input and the stack entries are, as long as each is left
alone for the instructions that read it (R33, R24). -/
theorem exec_mapUnread {i : Instr} {s t : State} {keys bytes draws stack}
    (hkeys : (∃ x, i = .skp x ∨ i = .sknp x) → keys = id)
    (hrand : (∃ x kk, i = .rnd x kk) → bytes = id ∧ draws = id)
    (hstack : (i = .ret ∨ ∃ nnn, i = .call nnn) → stack = id) (h : exec i s = .next t) :
    exec i (s.mapUnread keys bytes draws stack) = .next (t.mapUnread keys bytes draws stack) := by
  cases i with
  | ret =>
    obtain rfl := hstack (.inl rfl)
    obtain ⟨t', ht, h'⟩ := exec_ret_mapUnread s keys bytes draws
    cases h.symm.trans ht
    exact h'
  | call nnn =>
    obtain rfl := hstack (.inr ⟨nnn, rfl⟩)
    obtain ⟨t', ht, h'⟩ := exec_call_mapUnread nnn s keys bytes draws
    cases h.symm.trans ht
    exact h'
  | rnd x kk =>
    obtain ⟨rfl, rfl⟩ := hrand ⟨x, kk, rfl⟩
    cases h
    rfl
  | skp x =>
    obtain rfl := hkeys ⟨x, .inl rfl⟩
    cases h
    exact congrArg _ (s.skipIf_mapUnread _ _ _ _ _)
  | sknp x =>
    obtain rfl := hkeys ⟨x, .inr rfl⟩
    cases h
    exact congrArg _ (s.skipIf_mapUnread _ _ _ _ _)
  | seImm | sneImm | seReg | sneReg => cases h; exact congrArg _ (s.skipIf_mapUnread _ _ _ _ _)
  | drw | bcd | store | load => cases h; exact congrArg _ (s.whenInRange_mapUnread _ _ _ _ _ (by rfl))
  | addI => cases h; exact congrArg _ (s.addIndex_mapUnread _ _ _ _ _ _)
  | unknown => cases h; exact congrArg _ (s.surfaceUnknown_mapUnread _ _ _ _ _ _)
  | cls | jp | jpV0 | ldImm | addImm | ldReg | orReg | andReg | xorReg | addReg | subReg | shr | subnReg | shl | ldI
  | ldFont | ldFromDt | ldKey | ldDt | ldSt => cases h; rfl

/-- Settles O54: `exec_mapUnread` with the keys alone replaced. -/
theorem keysAreSampledOnlyByKeySkips : Obligations.KeysAreSampledOnlyByKeySkips := by
  intro i s t keys hskp hsknp h
  refine exec_mapUnread (keys := fun _ => keys) (bytes := id) (draws := id) (stack := id) ?_
    (fun _ => ⟨rfl, rfl⟩) (fun _ => rfl) h
  rintro ⟨x, rfl | rfl⟩
  · exact absurd rfl (hskp x)
  · exact absurd rfl (hsknp x)

/-- Settles O55: `exec_mapUnread` with the random input alone replaced. -/
theorem randomByteIsSampledOnlyByRnd : Obligations.RandomByteIsSampledOnlyByRnd := by
  intro i s t bytes n hrnd h
  exact exec_mapUnread (keys := id) (bytes := fun _ => bytes) (draws := fun _ => n) (stack := id) (fun _ => rfl)
    (fun ⟨x, kk, hi⟩ => absurd hi (hrnd x kk)) (fun _ => rfl) h

/-! ### Dead stack entries (R24) -/

/-- t and u differ in dead stack entries alone. -/
def State.SameLive (t u : State) : Prop :=
  u = { t with stack := u.stack } ∧ ∀ k : Fin 16, k.val < t.sp.val → u.stack[k.val] = t.stack[k.val]

section

variable {s t : State} {stack' : Vector Word 16}
  (hlive : ∀ k : Fin 16, k.val < s.sp.val → stack'[k.val] = s.stack[k.val])

include hlive

/-- 00EE reads the newest live entry alone. -/
theorem exec_ret_sameLive (h : exec .ret s = .next t) :
    ∃ u, exec .ret { s with stack := stack' } = .next u ∧ t.SameLive u := by
  rcases Nat.eq_zero_or_pos s.sp.val with hsp | hsp
  · rw [exec_ret_of_empty s hsp] at h
    cases h
    exact ⟨_, exec_ret_of_empty { s with stack := stack' } hsp, rfl, hlive⟩
  · rw [exec_ret_of_pos s hsp] at h
    cases h
    have htop : stack'[s.sp.val - 1] = s.stack[s.sp.val - 1] :=
      hlive ⟨s.sp.val - 1, by omega⟩ (Nat.sub_one_lt_of_lt hsp)
    refine ⟨_, exec_ret_of_pos { s with stack := stack' } hsp, by simp only [htop], fun k hk => hlive k ?_⟩
    exact Nat.lt_of_lt_of_le hk (Nat.sub_le _ _)

/-- 2nnn writes the lowest dead entry, whatever it held. -/
theorem exec_call_sameLive {nnn : Addr} (h : exec (.call nnn) s = .next t) :
    ∃ u, exec (.call nnn) { s with stack := stack' } = .next u ∧ t.SameLive u := by
  rcases Nat.lt_succ_iff_lt_or_eq.mp s.sp.isLt with hsp | hsp
  · rw [exec_call_of_lt nnn s hsp] at h
    cases h
    refine ⟨_, exec_call_of_lt nnn { s with stack := stack' } hsp, rfl, fun k hk => ?_⟩
    have hk : k.val < s.sp.val + 1 := hk
    simp only [Vector.getElem_set]
    split
    · rfl
    · exact hlive k (by omega)
  · rw [exec_call_of_full nnn s hsp] at h
    cases h
    exact ⟨_, exec_call_of_full nnn { s with stack := stack' } hsp, rfl, hlive⟩

/-- Every other instruction leaves the stack alone and takes no notice of it. -/
theorem exec_sameLive {i : Instr} (hret : i ≠ .ret) (hcall : ∀ nnn, i ≠ .call nnn) (h : exec i s = .next t) :
    ∃ u, exec i { s with stack := stack' } = .next u ∧ t.SameLive u := by
  obtain ⟨hstack, hsp⟩ := (exec_effect h).stack_sp hret hcall
  refine ⟨{ t with stack := stack' }, ?_, rfl, by simpa only [hstack, hsp] using hlive⟩
  refine exec_mapUnread (keys := id) (bytes := id) (draws := id) (stack := fun _ => stack') (fun _ => rfl)
    (fun _ => ⟨rfl, rfl⟩) ?_ h
  rintro (rfl | ⟨nnn, rfl⟩)
  · exact absurd rfl hret
  · exact absurd rfl (hcall nnn)

end

/-- Settles O56: 00EE and 2nnn on their own, every other instruction by its frame. -/
theorem deadStackEntriesAreUnreadable : Obligations.DeadStackEntriesAreUnreadable := by
  intro i s t stack' hlive h
  by_cases hret : i = .ret
  · subst hret
    exact exec_ret_sameLive hlive h
  by_cases hcall : ∃ nnn, i = .call nnn
  · obtain ⟨nnn, rfl⟩ := hcall
    exact exec_call_sameLive hlive h
  · exact exec_sameLive hlive hret (not_exists.mp hcall) h

end Sys2Proof.Machine

/-! PROOFS. The state's instructions one by one: the stack, the random input, the key wait, the timers, and reset. -/

namespace Sys2Proof.Machine

/-! ### Decoding in formats NNN, XKK and X (R92, R94) -/

theorem decode_call (nnn : Addr) : decode (wordNNN 0x2000#16 nnn) = .call nnn := by
  have hop : fieldOp (wordNNN 0x2000#16 nnn) = 0x2#4 := (fieldOp_wordNNN _ nnn).trans (by decide)
  have hnnn : fieldNNN (wordNNN 0x2000#16 nnn) = nnn := by
    rw [fieldNNN_wordNNN, show fieldNNN 0x2000#16 = 0#12 from by decide, BitVec.zero_or]
  simp only [decode, hop, hnnn]

theorem decode_rnd (x : Nibble) (kk : Byte) : decode (wordXKK 0xC000#16 x kk) = .rnd x kk := by
  have hop : fieldOp (wordXKK 0xC000#16 x kk) = 0xC#4 := (fieldOp_wordXKK _ x kk).trans (by decide)
  have hx : fieldX (wordXKK 0xC000#16 x kk) = x := by
    rw [fieldX_wordXKK, show fieldX 0xC000#16 = 0#4 from by decide, BitVec.zero_or]
  have hkk : fieldKK (wordXKK 0xC000#16 x kk) = kk := by
    rw [fieldKK_wordXKK, show fieldKK 0xC000#16 = 0#8 from by decide, BitVec.zero_or]
  simp only [decode, hop, hx, hkk]

/-- A word of format X in family 0xF decodes by its low byte, and its field x is the operand. -/
theorem decode_familyF {base : Word} (x : Nibble) {op : Nibble → Instr} (hop : fieldOp base = 0xF#4)
    (hx : fieldX base = 0#4) (hkk : ∀ w, fieldKK w = fieldKK base → decodeFamilyF w = op (fieldX w)) :
    decode (wordX base x) = op x := by
  have hop' : fieldOp (wordX base x) = 0xF#4 := (fieldOp_wordX base x).trans hop
  have hx' : fieldX (wordX base x) = x := by rw [fieldX_wordX, hx, BitVec.zero_or]
  have hF : decode (wordX base x) = decodeFamilyF (wordX base x) := by simp [decode, hop']
  rw [hF, hkk _ (fieldKK_wordX base x), hx']

theorem decode_ldKey (x : Nibble) : decode (wordX 0xF00A#16 x) = .ldKey x :=
  decode_familyF x (by decide) (by decide) fun w h => by
    have h : fieldKK w = 0x0A#8 := h
    simp only [decodeFamilyF, h]

theorem decode_ldFromDt (x : Nibble) : decode (wordX 0xF007#16 x) = .ldFromDt x :=
  decode_familyF x (by decide) (by decide) fun w h => by
    have h : fieldKK w = 0x07#8 := h
    simp only [decodeFamilyF, h]

theorem decode_ldDt (x : Nibble) : decode (wordX 0xF015#16 x) = .ldDt x :=
  decode_familyF x (by decide) (by decide) fun w h => by
    have h : fieldKK w = 0x15#8 := h
    simp only [decodeFamilyF, h]

theorem decode_ldSt (x : Nibble) : decode (wordX 0xF018#16 x) = .ldSt x :=
  decode_familyF x (by decide) (by decide) fun w h => by
    have h : fieldKK w = 0x18#8 := h
    simp only [decodeFamilyF, h]

/-- Settles O13, both sides of the pop. -/
theorem returnPopsTheStack : Obligations.ReturnPopsTheStack :=
  ⟨by decide, fun s => ⟨exec_ret_of_pos s, exec_ret_of_empty s⟩⟩

/-- Settles O14, both sides of the push. -/
theorem callPushesTheReturnAddress : Obligations.CallPushesTheReturnAddress :=
  fun nnn s => ⟨decode_call nnn, exec_call_of_lt nnn s, exec_call_of_full nnn s⟩

/-! ### The random input (R185, R33) -/

theorem State.nextRand_of_cons {s : State} {b : Byte} {bs : List Byte} (h : s.randIn = b :: bs) : s.nextRand = b := by
  simp only [State.nextRand, h]

theorem State.nextRand_of_nil {s : State} (h : s.randIn = []) : s.nextRand = Config.randByte s.draws := by
  simp only [State.nextRand, h]

/-- Settles O25, on the draw that `State.nextRand` gives. -/
theorem randomByteIsMasked : Obligations.RandomByteIsMasked := by
  intro x kk s
  have hx : (s.consumeRand.writeReg x (s.nextRand &&& kk)).readReg x = s.nextRand &&& kk := by
    rw [State.readReg_writeReg, if_pos rfl]
  refine ⟨decode_rnd x kk, s.consumeRand.writeReg x (s.nextRand &&& kk), rfl, fun b bs h => ?_, fun h => ?_, ?_, rfl,
    fun r hr => ?_, rfl⟩
  · exact ⟨by rw [hx, State.nextRand_of_cons h], by simp [h]⟩
  · exact ⟨by rw [hx, State.nextRand_of_nil h], by simp [h]⟩
  · rw [hx, BitVec.and_assoc, BitVec.and_not_self]
    exact BitVec.and_zero
  · rw [State.readReg_writeReg, if_neg hr, State.readReg_consumeRand]

/-! ### The key wait (R243, R131) -/

theorem State.keyPress_of_waiting {s : State} (k : Nibble) (h : s.run = .waitingForKey) :
    s.keyPress k = { s.writeReg s.waitX (k.setWidth 8) with run := .running } := by
  simp only [State.keyPress, h]

theorem State.keyPress_of_not_waiting {s : State} (k : Nibble) (h : s.run ≠ .waitingForKey) : s.keyPress k = s := by
  unfold State.keyPress
  split
  · next hw => exact absurd hw h
  · rfl

theorem State.readReg_keyPress {s : State} (k r : Nibble) (h : s.run = .waitingForKey) :
    (s.keyPress k).readReg r = if r = s.waitX then k.setWidth 8 else s.readReg r := by
  rw [State.keyPress_of_waiting k h]
  exact s.readReg_writeReg s.waitX r _

/-- Settles O39, in a waiting machine and in any other. -/
theorem keyWaitEndsWithThePress : Obligations.KeyWaitEndsWithThePress := by
  intro x k s
  refine ⟨decode_ldKey x, rfl, fun h => ⟨?_, fun r hr => ?_, ?_⟩, State.keyPress_of_not_waiting k⟩
  · rw [State.readReg_keyPress k _ h, if_pos rfl]
    exact BitVec.toNat_setWidth_of_le (by decide)
  · rw [State.readReg_keyPress k r h, if_neg hr]
  · rw [State.keyPress_of_waiting k h]
    rfl

/-! ### The timers (R244 to R246) -/

theorem State.onlyRegs_writeReg (s : State) (x : Nibble) (b : Byte) : s.OnlyRegs (s.writeReg x b) [x] :=
  ⟨rfl, fun r hr => by rw [State.readReg_writeReg, if_neg (by simpa using hr)]⟩

/-- Settles O40. -/
theorem timerTransfersCopyTheRegister : Obligations.TimerTransfersCopyTheRegister := by
  intro x s
  refine ⟨decode_ldFromDt x, decode_ldDt x, decode_ldSt x,
    ⟨s.writeReg x s.dt, rfl, ?_, s.onlyRegs_writeReg x s.dt⟩, rfl, _, rfl, rfl, ?_⟩
  · rw [State.readReg_writeReg, if_pos rfl]
  · simp [State.soundActive]

/-! ### Reset (R37, R300) -/

theorem State.pixel_hostReset (s : State) (px : Fin 64) (py : Fin 32) : s.hostReset.pixel px py = false :=
  Display.pixel_clear px py

theorem State.readReg_hostReset (s : State) (r : Nibble) : s.hostReset.readReg r = 0 :=
  Vector.getElem_replicate _

/-- Settles O57, element by element. -/
theorem resetRestoresTheInitialValues : Obligations.ResetRestoresTheInitialValues :=
  ⟨rfl, fun s => ⟨rfl, rfl, rfl, rfl, s.pixel_hostReset, s.readReg_hostReset, rfl, rfl, rfl, fun _ => rfl, rfl, rfl⟩⟩

end Sys2Proof.Machine

/-! PROOFS. Memory: the cycle's fetch, the blocks of Dxyn, Fx33, Fx55 and Fx65 at I, and the host's access to one byte. -/

namespace Sys2Proof

/-- The value of a word of two bytes, the first of them the high one (R64). -/
theorem toNat_wordOfBytes (hi lo : Byte) : (wordOfBytes hi lo).toNat = hi.toNat * 256 + lo.toNat := by
  rw [wordOfBytes, BitVec.toNat_append, ← Nat.shiftLeft_add_eq_or_of_lt lo.isLt, Nat.shiftLeft_eq]

end Sys2Proof

namespace Sys2Proof.Machine

variable {s t : State}

/-! ### The fetch (R64, R122) -/

theorem step_of_fetch {w : Word} (hrun : s.run = .running) (hw : s.fetch = .ok w) :
    step s = exec (decode w) (s.setPc (s.pc + 2)) := by
  simp only [step, State.beginCycle, hrun, hw]

/-- Settles O5: the word with that value is the one fetched. -/
theorem stepRunsTheDecodedInstruction : Obligations.StepRunsTheDecodedInstruction := by
  intro s w hrun hpc hw
  refine step_of_fetch hrun ((s.fetch_ok_iff w).mpr ⟨hpc, BitVec.eq_of_toNat_eq ?_⟩)
  rw [hw, toNat_wordOfBytes]

/-! ### The block at I (R69) -/

theorem State.whenInRange_of_le {len : Nat} (h : s.i.toNat + len ≤ 4096) : s.whenInRange len t = t := by
  rw [State.whenInRange_eq, if_pos h]

theorem State.whenInRange_of_lt {len : Nat} (h : 4096 < s.i.toNat + len) :
    s.whenInRange len t = s.raise (.outOfBoundsAccess 0x1000) := by
  rw [State.whenInRange_eq, if_neg (Nat.not_le.mpr h)]

/-- Settles O32: each of the four instructions is one range check. -/
theorem blockOutOfRangeChangesNothing : Obligations.BlockOutOfRangeChangesNothing := by
  rintro x y n s t rfl
  exact ⟨fun h => congrArg Host.Outcome.next (State.whenInRange_of_lt h),
    fun h => congrArg Host.Outcome.next (State.whenInRange_of_lt (Nat.succ_lt_succ h)),
    fun h => congrArg Host.Outcome.next (State.whenInRange_of_lt (Nat.succ_lt_succ h)),
    fun h => congrArg Host.Outcome.next (State.whenInRange_of_lt (Nat.succ_lt_succ h))⟩

theorem exec_store_of_le {x : Nibble} (h : s.i.toNat + x.toNat ≤ 0xFFF) :
    exec (.store x) s = .next { s with mem := s.mem.writeBlock s.i.toNat (s.readRegs x) } :=
  congrArg Host.Outcome.next (State.whenInRange_of_le (Nat.succ_le_succ h))

theorem exec_load_of_le {x : Nibble} (h : s.i.toNat + x.toNat ≤ 0xFFF) :
    exec (.load x) s = .next (s.writeRegs (s.mem.readBlock s.i.toNat (x.toNat + 1))) :=
  congrArg Host.Outcome.next (State.whenInRange_of_le (Nat.succ_le_succ h))

/-- Byte k of the block that Fx55 writes is Vk (R205). -/
theorem read_writeBlock_readRegs {x k : Nibble} (hm : s.mem.wf = true) (h : s.i.toNat + x.toNat ≤ 0xFFF)
    (hk : k.toNat ≤ x.toNat) :
    (s.mem.writeBlock s.i.toNat (s.readRegs x)).read (s.i.toNat + k.toNat) = s.readReg k := by
  have hlen := s.length_readRegs x
  have hin : s.i.toNat + (s.readRegs x).length ≤ 4096 := by omega
  rw [Memory.read_writeBlock_inside _ _ _ _ hin hm (by omega), s.getD_readRegs x k hk]

/-- Vk after the block load of Fx65 is byte k of the block (R206). -/
theorem readReg_writeRegs_readBlock {x k : Nibble} (m : Memory) (base : Nat) (hk : k.toNat ≤ x.toNat) :
    (s.writeRegs (m.readBlock base (x.toNat + 1))).readReg k = m.read (base + k.toNat) := by
  have hx := x.isLt
  have hlen := m.length_readBlock (x.toNat + 1) base
  rw [State.readReg_writeRegs _ _ _ (by omega), if_pos (by omega), m.getD_readBlock _ _ _ (by omega)]

/-- Settles O33: each register comes back through its own byte of the block. -/
theorem storeThenLoadRestoresRegisters : Obligations.StoreThenLoadRestoresRegisters := by
  intro x s t u hm hrange hstore hi hblock
  cases (exec_store_of_le hrange).symm.trans hstore
  refine ⟨_, exec_load_of_le (by rwa [hi]), fun k hk => ?_⟩
  calc (u.writeRegs (u.mem.readBlock u.i.toNat (x.toNat + 1))).readReg k
      = u.mem.read (s.i.toNat + k.toNat) := by rw [readReg_writeRegs_readBlock _ _ hk, hi]
    _ = (s.mem.writeBlock s.i.toNat (s.readRegs x)).read (s.i.toNat + k.toNat) := hblock _ (by omega) (by omega)
    _ = s.readReg k := read_writeBlock_readRegs hm hrange hk

/-! ### The writers of memory (R67, R68) -/

theorem Effect.mem_eq {i : Instr} (he : Effect s i t) (hbcd : ∀ x, i ≠ .bcd x) (hstore : ∀ x, i ≠ .store x) :
    t.mem = s.mem := by
  cases he with
  | storeBlock _ bs hi =>
    rcases hi with ⟨x, hi⟩ | ⟨x, hi⟩
    · exact absurd hi (hbcd x)
    · exact absurd hi (hstore x)
  | skip => simp
  | raise | cls | ret | call | jump | writeReg | resultFlag | rnd | draw | index | indexFlag | loadBlock | awaitKey
  | setTimer | unknown => rfl

/-- A checked block write changes no byte outside its block, on either side of the check (R68, R69). -/
theorem read_whenInRange_writeBlock_outside {len a : Nat} {bs : List Byte}
    (ha : ¬ (s.i.toNat ≤ a ∧ a < s.i.toNat + bs.length)) :
    (s.whenInRange len { s with mem := s.mem.writeBlock s.i.toNat bs }).mem.read a = s.mem.read a := by
  rw [State.whenInRange_eq]
  split
  · exact Memory.read_writeBlock_outside bs s.mem _ a ha
  · rfl

/-- Settles O47, from the effects and, for the two writers, from the frame of a checked block write. -/
theorem memoryWrittenOnlyInsideTheBlock : Obligations.MemoryWrittenOnlyInsideTheBlock := by
  intro i s t a h
  refine ⟨fun hbcd hstore => by rw [(exec_effect h).mem_eq hbcd hstore], ?_, ?_⟩
  · rintro x rfl ha
    cases h
    exact read_whenInRange_writeBlock_outside ha
  · rintro x rfl ha
    cases h
    refine read_whenInRange_writeBlock_outside ?_
    rw [s.length_readRegs]
    omega

/-! ### The host's access to one byte (R75) -/

theorem State.readByte_of_le {addr : Nat} (h : addr ≤ 0xFFF) : s.readByte addr = .ok (s.mem.read addr) :=
  if_pos (Nat.lt_succ_of_le h)

theorem State.readByte_of_gt {addr : Nat} (h : 0xFFF < addr) : s.readByte addr = .error (.outOfBoundsAccess addr) :=
  if_neg (Nat.not_lt.mpr h)

theorem State.writeByte_of_le {addr : Nat} (b : Byte) (h : addr ≤ 0xFFF) :
    s.writeByte addr b = .ok { s with mem := s.mem.write addr b } :=
  if_pos (Nat.lt_succ_of_le h)

theorem State.writeByte_of_gt {addr : Nat} (b : Byte) (h : 0xFFF < addr) :
    s.writeByte addr b = .error (.outOfBoundsAccess addr) :=
  if_neg (Nat.not_lt.mpr h)

theorem State.hostOp_writeByte_of_le {addr : Nat} (b : Byte) (h : addr ≤ 0xFFF) :
    s.hostOp (.writeByte addr b) = { s with mem := s.mem.write addr b } := by
  simp only [State.hostOp, State.writeByte_of_le b h]

theorem State.hostOp_writeByte_of_gt {addr : Nat} (b : Byte) (h : 0xFFF < addr) :
    s.hostOp (.writeByte addr b) = s := by
  simp only [State.hostOp, State.writeByte_of_gt b h]

/-- Settles O59, on both sides of the bound. -/
theorem hostByteAccessIsExact : Obligations.HostByteAccessIsExact := by
  refine fun addr b s hm => ⟨fun h => ⟨_, State.writeByte_of_le b h, ?_, ?_, ?_, rfl⟩, fun h =>
    ⟨State.readByte_of_gt h, State.writeByte_of_gt b h, State.hostOp_writeByte_of_gt b h⟩⟩
  · rw [State.readByte_of_le h, Memory.read_write_same _ _ _ hm]
  · exact fun a ha => Memory.read_write_ne _ _ _ _ ha
  · exact Memory.wf_write _ _ _ (Nat.lt_succ_of_le h) hm

/-- A word written at PC, high byte first, is the word fetched (R64, R72). -/
theorem State.fetch_of_write_word (w : Word) (hm : s.mem.wf = true) (hpc : s.pc.toNat ≤ 0xFFE) :
    { s with mem := (s.mem.write s.pc.toNat (w.extractLsb' 8 8)).write (s.pc.toNat + 1) (w.extractLsb' 0 8) }.fetch
      = .ok w := by
  rw [State.fetch_ok_iff, Memory.read_write_ne _ _ _ _ (by simp), Memory.read_write_same _ _ _ hm,
    Memory.read_write_same _ _ _ (Memory.wf_write _ _ _ (Nat.lt_of_le_of_lt hpc (by decide)) hm),
    wordOfBytes_bytesOfWord]
  exact ⟨hpc, rfl⟩

/-- Settles O60: the fetch gives the word written. -/
theorem writtenWordIsTheOneExecuted : Obligations.WrittenWordIsTheOneExecuted := by
  intro s w hm hrun hpc
  refine ⟨_, rfl, ?_⟩
  rw [State.hostOp_writeByte_of_le _ (Nat.le_succ_of_le hpc), State.hostOp_writeByte_of_le _ (Nat.succ_le_succ hpc)]
  exact step_of_fetch hrun (State.fetch_of_write_word w hm hpc)

end Sys2Proof.Machine

/-! PROOFS. Encoding: a word is its fixed bits and its fields, so `encode` and `decode` undo each other; what the opcode map
selects then follows from the round trip and the laws `SelectsRow`. -/

namespace Sys2Proof

/-! ### The fields of fixed bits (R91) -/

@[simp] theorem fieldOp_ofNat (n : Nat) : fieldOp (BitVec.ofNat 16 n) = BitVec.ofNat 4 (n / 4096) := by
  apply BitVec.eq_of_toNat_eq
  simp only [fieldOp, BitVec.extractLsb'_toNat, BitVec.toNat_ofNat, Nat.reducePow, Nat.shiftRight_eq_div_pow]
  omega

@[simp] theorem fieldX_ofNat (n : Nat) : fieldX (BitVec.ofNat 16 n) = BitVec.ofNat 4 (n / 256) := by
  apply BitVec.eq_of_toNat_eq
  simp only [fieldX, BitVec.extractLsb'_toNat, BitVec.toNat_ofNat, Nat.reducePow, Nat.shiftRight_eq_div_pow]
  omega

@[simp] theorem fieldY_ofNat (n : Nat) : fieldY (BitVec.ofNat 16 n) = BitVec.ofNat 4 (n / 16) := by
  apply BitVec.eq_of_toNat_eq
  simp only [fieldY, BitVec.extractLsb'_toNat, BitVec.toNat_ofNat, Nat.reducePow, Nat.shiftRight_eq_div_pow]
  omega

@[simp] theorem fieldN_ofNat (n : Nat) : fieldN (BitVec.ofNat 16 n) = BitVec.ofNat 4 n := by
  apply BitVec.eq_of_toNat_eq
  simp [fieldN]

@[simp] theorem fieldKK_ofNat (n : Nat) : fieldKK (BitVec.ofNat 16 n) = BitVec.ofNat 8 n := by
  apply BitVec.eq_of_toNat_eq
  simp [fieldKK]

@[simp] theorem fieldNNN_ofNat (n : Nat) : fieldNNN (BitVec.ofNat 16 n) = BitVec.ofNat 12 n := by
  apply BitVec.eq_of_toNat_eq
  simp [fieldNNN]

/-! ### A word of a row is the row's pattern with its own fields, in each format of R92 -/

section

variable {w base : Word}

theorem Row.selects_mk_iff {mask : Word} : (Row.mk mask base).selects w = true ↔ w &&& mask = base := beq_iff_eq

theorem eq_of_selects_FFFF (h : (Row.mk 0xFFFF#16 base).selects w = true) : w = base := by
  have hand : w &&& 0xFFFF#16 = w := BitVec.and_allOnes
  exact hand.symm.trans (Row.selects_mk_iff.mp h)

theorem wordNNN_fieldNNN (h : (Row.mk 0xF000#16 base).selects w = true) : wordNNN base (fieldNNN w) = w := by
  rw [← Row.selects_mk_iff.mp h]
  ext i hi
  simp only [fieldNNN, wordNNN, BitVec.getElem_or, BitVec.getElem_and, getElem_F000, BitVec.getElem_setWidth,
    BitVec.getLsbD_extractLsb']
  grind

theorem wordXKK_fields (h : (Row.mk 0xF000#16 base).selects w = true) : wordXKK base (fieldX w) (fieldKK w) = w := by
  rw [← Row.selects_mk_iff.mp h]
  ext i hi
  simp only [fieldX, fieldKK, wordXKK, BitVec.getElem_or, BitVec.getElem_and, getElem_F000, BitVec.getElem_shiftLeft,
    BitVec.getElem_setWidth, BitVec.getLsbD_extractLsb']
  grind

theorem wordXY_fields (h : (Row.mk 0xF00F#16 base).selects w = true) : wordXY base (fieldX w) (fieldY w) = w := by
  rw [← Row.selects_mk_iff.mp h]
  ext i hi
  simp only [fieldX, fieldY, wordXY, BitVec.getElem_or, BitVec.getElem_and, getElem_F00F, BitVec.getElem_shiftLeft,
    BitVec.getElem_setWidth, BitVec.getLsbD_extractLsb']
  grind

theorem wordXYN_fields (h : (Row.mk 0xF000#16 base).selects w = true) :
    wordXYN base (fieldX w) (fieldY w) (fieldN w) = w := by
  rw [← Row.selects_mk_iff.mp h]
  ext i hi
  simp only [fieldX, fieldY, fieldN, wordXYN, wordXY, BitVec.getElem_or, BitVec.getElem_and, getElem_F000,
    BitVec.getElem_shiftLeft, BitVec.getElem_setWidth, BitVec.getLsbD_extractLsb']
  grind

theorem wordX_fieldX (h : (Row.mk 0xF0FF#16 base).selects w = true) : wordX base (fieldX w) = w := by
  rw [← Row.selects_mk_iff.mp h]
  ext i hi
  simp only [fieldX, wordX, BitVec.getElem_or, BitVec.getElem_and, getElem_F0FF, BitVec.getElem_shiftLeft,
    BitVec.getElem_setWidth, BitVec.getLsbD_extractLsb']
  grind

/-! ### The decoder's tests are the masks of the opcode map (R94, R95) -/

theorem and_F000_eq (w : Word) : w &&& 0xF000#16 = fieldOp w ++ 0#12 := by
  ext i hi
  simp only [fieldOp, BitVec.getElem_and, getElem_F000]
  grind

theorem and_F00F_eq (w : Word) : w &&& 0xF00F#16 = fieldOp w ++ 0#8 ++ fieldN w := by
  ext i hi
  simp only [fieldOp, fieldN, BitVec.getElem_and, getElem_F00F]
  grind

theorem and_F0FF_eq (w : Word) : w &&& 0xF0FF#16 = fieldOp w ++ 0#4 ++ fieldKK w := by
  ext i hi
  simp only [fieldOp, fieldKK, BitVec.getElem_and, getElem_F0FF]
  grind

theorem selects_F000_of_op {op : Nibble} (hop : fieldOp w = op) : (Row.mk 0xF000#16 (op ++ 0#12)).selects w = true :=
  Row.selects_mk_iff.mpr (hop ▸ and_F000_eq w)

theorem selects_F00F_of_op_n {op n : Nibble} (hop : fieldOp w = op) (hn : fieldN w = n) :
    (Row.mk 0xF00F#16 (op ++ 0#8 ++ n)).selects w = true :=
  Row.selects_mk_iff.mpr (hop ▸ hn ▸ and_F00F_eq w)

theorem selects_F0FF_of_op_kk {op : Nibble} {kk : Byte} (hop : fieldOp w = op) (hkk : fieldKK w = kk) :
    (Row.mk 0xF0FF#16 (op ++ 0#4 ++ kk)).selects w = true :=
  Row.selects_mk_iff.mpr (hop ▸ hkk ▸ and_F0FF_eq w)

/-! ### Encoding what was decoded (R103) -/

theorem encode_decodeFamily0 (w : Word) : encode (decodeFamily0 w) = w := by
  unfold decodeFamily0
  split
  · next h => exact h.symm
  · split
    · next h => exact h.symm
    · rfl

theorem encode_decodeFamily8 (hop : fieldOp w = 0x8#4) : encode (decodeFamily8 w) = w := by
  unfold decodeFamily8
  split
  case h_10 => rfl
  all_goals next hn => exact wordXY_fields (selects_F00F_of_op_n hop hn)

theorem encode_decodeFamilyE (hop : fieldOp w = 0xE#4) : encode (decodeFamilyE w) = w := by
  unfold decodeFamilyE
  split
  case h_3 => rfl
  all_goals next hkk => exact wordX_fieldX (selects_F0FF_of_op_kk hop hkk)

theorem encode_decodeFamilyF (hop : fieldOp w = 0xF#4) : encode (decodeFamilyF w) = w := by
  unfold decodeFamilyF
  split
  case h_10 => rfl
  all_goals next hkk => exact wordX_fieldX (selects_F0FF_of_op_kk hop hkk)

end

/-- No bit of a word is lost, whichever branch of the decoder reads it (R94, R96). -/
theorem encode_decode (w : Word) : encode (decode w) = w := by
  unfold decode
  split
  case h_1 => exact encode_decodeFamily0 w
  case h_6 hop | h_10 hop =>
    split
    · next hn => exact wordXY_fields (selects_F00F_of_op_n hop hn)
    · rfl
  case h_9 hop => exact encode_decodeFamily8 hop
  case h_15 hop => exact encode_decodeFamilyE hop
  case h_16 =>
    have hop : fieldOp w = 0xF#4 := by
      generalize fieldOp w = op at *
      revert op
      decide
    exact encode_decodeFamilyF hop
  case h_2 hop | h_3 hop | h_11 hop | h_12 hop => exact wordNNN_fieldNNN (selects_F000_of_op hop)
  case h_4 hop | h_5 hop | h_7 hop | h_8 hop | h_13 hop => exact wordXKK_fields (selects_F000_of_op hop)
  case h_14 hop => exact wordXYN_fields (selects_F000_of_op hop)

theorem eq_of_decode_unknown {w w' : Word} (h : decode w = .unknown w') : w' = w := by
  simpa only [h, encode] using encode_decode w

/-! ### The row of an instruction -/

open Laws in
/-- The laws `SelectsRow`, one per constructor, as one statement about every instruction (R95). -/
theorem selects_row_encode (i : Instr) : SelectsRow.Statement i :=
  match i with
  | .cls => SelectsRow.cls
  | .ret => SelectsRow.ret
  | .jp nnn => SelectsRow.jp nnn
  | .call nnn => SelectsRow.call nnn
  | .seImm x kk => SelectsRow.seImm x kk
  | .sneImm x kk => SelectsRow.sneImm x kk
  | .seReg x y => SelectsRow.seReg x y
  | .ldImm x kk => SelectsRow.ldImm x kk
  | .addImm x kk => SelectsRow.addImm x kk
  | .ldReg x y => SelectsRow.ldReg x y
  | .orReg x y => SelectsRow.orReg x y
  | .andReg x y => SelectsRow.andReg x y
  | .xorReg x y => SelectsRow.xorReg x y
  | .addReg x y => SelectsRow.addReg x y
  | .subReg x y => SelectsRow.subReg x y
  | .shr x y => SelectsRow.shr x y
  | .subnReg x y => SelectsRow.subnReg x y
  | .shl x y => SelectsRow.shl x y
  | .sneReg x y => SelectsRow.sneReg x y
  | .ldI nnn => SelectsRow.ldI nnn
  | .jpV0 nnn => SelectsRow.jpV0 nnn
  | .rnd x kk => SelectsRow.rnd x kk
  | .drw x y n => SelectsRow.drw x y n
  | .skp x => SelectsRow.skp x
  | .sknp x => SelectsRow.sknp x
  | .ldFromDt x => SelectsRow.ldFromDt x
  | .ldKey x => SelectsRow.ldKey x
  | .ldDt x => SelectsRow.ldDt x
  | .ldSt x => SelectsRow.ldSt x
  | .addI x => SelectsRow.addI x
  | .ldFont x => SelectsRow.ldFont x
  | .bcd x => SelectsRow.bcd x
  | .store x => SelectsRow.store x
  | .load x => SelectsRow.load x
  | .unknown w => SelectsRow.unknown w

theorem definedWord_iff {w : Word} : definedWord w = true ↔ ∃ r ∈ opcodeRows, r.selects w = true := List.any_eq_true

/-- Every instruction but `Unknown` stands in a row of the map (R95). -/
theorem row_mem_opcodeRows {i : Instr} (h : ∀ w, i ≠ .unknown w) : i.row ∈ opcodeRows := by
  cases i with
  | unknown w => exact absurd rfl (h w)
  | _ => simp [Instr.row, opcodeRows, rowsLow, rowsHigh]

theorem row_unknown_notMem_opcodeRows (w : Word) : (Instr.unknown w).row ∉ opcodeRows := by
  simp only [Instr.row]
  decide

theorem wellFormed_of_ne_unknown {i : Instr} (h : ∀ w, i ≠ .unknown w) : i.wellFormed = true := by
  cases i with
  | unknown w => exact absurd rfl (h w)
  | _ => rfl

theorem wellFormed_unknown_iff {w : Word} : (Instr.unknown w).wellFormed = true ↔ definedWord w = false := by
  simp [Instr.wellFormed]

theorem definedWord_encode {i : Instr} (h : ∀ w, i ≠ .unknown w) : definedWord (encode i) = true :=
  definedWord_iff.mpr ⟨i.row, row_mem_opcodeRows h, selects_row_encode i (wellFormed_of_ne_unknown h)⟩

/-- The decoder finds no instruction of the map in a word outside it: that instruction's encoding would be the word. -/
theorem decode_of_not_definedWord {w : Word} (h : definedWord w = false) : decode w = .unknown w := by
  by_cases hu : ∃ w', decode w = .unknown w'
  · obtain ⟨w', hw'⟩ := hu
    rw [hw', eq_of_decode_unknown hw']
  · have hdef := definedWord_encode (not_exists.mp hu)
    rw [encode_decode, h] at hdef
    cases hdef

/-! ### Decoding what was encoded (R103) -/

/-- In each format the decoder finds the fixed bits, hence the branch, and then the operands. -/
theorem decode_encode {i : Instr} (h : i.wellFormed = true) : decode (encode i) = i := by
  cases i with
  | cls | ret => decide
  | call nnn => exact Machine.decode_call nnn
  | rnd x kk => exact Machine.decode_rnd x kk
  | jp | ldI | jpV0 | seImm | sneImm | ldImm | addImm | seReg | sneReg | drw => simp [encode, decode]
  | ldReg | orReg | andReg | xorReg | addReg | subReg | shr | subnReg | shl => simp [encode, decode, decodeFamily8]
  | skp | sknp => simp [encode, decode, decodeFamilyE]
  | ldFromDt x => exact Machine.decode_ldFromDt x
  | ldKey x => exact Machine.decode_ldKey x
  | ldDt x => exact Machine.decode_ldDt x
  | ldSt x => exact Machine.decode_ldSt x
  | addI | ldFont | bcd | store | load => simp [encode, decode, decodeFamilyF]
  | unknown w => exact decode_of_not_definedWord (wellFormed_unknown_iff.mp h)

/-- Settles O2, by the format of the instruction. -/
theorem decodeOfEncodeIsTheInstruction : Obligations.DecodeOfEncodeIsTheInstruction := fun _ => decode_encode

/-! ### Every word of a row is the encoding of an instruction of that row (R95, R96) -/

theorem exists_encode_of_selects {r : Row} {w : Word} (hr : r ∈ opcodeRows) (h : r.selects w = true) :
    ∃ i : Instr, i.row = r ∧ encode i = w := by
  simp only [opcodeRows, rowsLow, rowsHigh, List.cons_append, List.nil_append, List.mem_cons, List.not_mem_nil,
    or_false] at hr
  rcases hr with rfl | rfl | rfl | rfl | rfl | rfl | rfl | rfl | rfl | rfl | rfl | rfl | rfl | rfl | rfl | rfl | rfl |
    rfl | rfl | rfl | rfl | rfl | rfl | rfl | rfl | rfl | rfl | rfl | rfl | rfl | rfl | rfl | rfl | rfl
  · exact ⟨.cls, rfl, (eq_of_selects_FFFF h).symm⟩
  · exact ⟨.ret, rfl, (eq_of_selects_FFFF h).symm⟩
  · exact ⟨.jp _, rfl, wordNNN_fieldNNN h⟩
  · exact ⟨.call _, rfl, wordNNN_fieldNNN h⟩
  · exact ⟨.seImm _ _, rfl, wordXKK_fields h⟩
  · exact ⟨.sneImm _ _, rfl, wordXKK_fields h⟩
  · exact ⟨.seReg _ _, rfl, wordXY_fields h⟩
  · exact ⟨.ldImm _ _, rfl, wordXKK_fields h⟩
  · exact ⟨.addImm _ _, rfl, wordXKK_fields h⟩
  · exact ⟨.ldReg _ _, rfl, wordXY_fields h⟩
  · exact ⟨.orReg _ _, rfl, wordXY_fields h⟩
  · exact ⟨.andReg _ _, rfl, wordXY_fields h⟩
  · exact ⟨.xorReg _ _, rfl, wordXY_fields h⟩
  · exact ⟨.addReg _ _, rfl, wordXY_fields h⟩
  · exact ⟨.subReg _ _, rfl, wordXY_fields h⟩
  · exact ⟨.shr _ _, rfl, wordXY_fields h⟩
  · exact ⟨.subnReg _ _, rfl, wordXY_fields h⟩
  · exact ⟨.shl _ _, rfl, wordXY_fields h⟩
  · exact ⟨.sneReg _ _, rfl, wordXY_fields h⟩
  · exact ⟨.ldI _, rfl, wordNNN_fieldNNN h⟩
  · exact ⟨.jpV0 _, rfl, wordNNN_fieldNNN h⟩
  · exact ⟨.rnd _ _, rfl, wordXKK_fields h⟩
  · exact ⟨.drw _ _ _, rfl, wordXYN_fields h⟩
  · exact ⟨.skp _, rfl, wordX_fieldX h⟩
  · exact ⟨.sknp _, rfl, wordX_fieldX h⟩
  · exact ⟨.ldFromDt _, rfl, wordX_fieldX h⟩
  · exact ⟨.ldKey _, rfl, wordX_fieldX h⟩
  · exact ⟨.ldDt _, rfl, wordX_fieldX h⟩
  · exact ⟨.ldSt _, rfl, wordX_fieldX h⟩
  · exact ⟨.addI _, rfl, wordX_fieldX h⟩
  · exact ⟨.ldFont _, rfl, wordX_fieldX h⟩
  · exact ⟨.bcd _, rfl, wordX_fieldX h⟩
  · exact ⟨.store _, rfl, wordX_fieldX h⟩
  · exact ⟨.load _, rfl, wordX_fieldX h⟩

/-- A word that selects a row decodes to an instruction of that row: it is the encoding of one. -/
theorem row_decode_of_selects {r : Row} {w : Word} (hr : r ∈ opcodeRows) (h : r.selects w = true) :
    (decode w).row = r := by
  obtain ⟨i, rfl, rfl⟩ := exists_encode_of_selects hr h
  have hi : ∀ w', i ≠ .unknown w' := by
    rintro w' rfl
    exact row_unknown_notMem_opcodeRows w' hr
  rw [decode_encode (wellFormed_of_ne_unknown hi)]

theorem not_definedWord_of_decode {w w' : Word} (h : decode w = .unknown w') : definedWord w = false := by
  refine Bool.eq_false_iff.mpr fun hdef => ?_
  obtain ⟨r, hr, hsel⟩ := definedWord_iff.mp hdef
  rw [← row_decode_of_selects hr hsel, h] at hr
  exact row_unknown_notMem_opcodeRows w' hr

theorem wellFormed_decode (w : Word) : (decode w).wellFormed = true := by
  by_cases hu : ∃ w', decode w = .unknown w'
  · obtain ⟨w', hw'⟩ := hu
    obtain rfl := eq_of_decode_unknown hw'
    rw [hw', wellFormed_unknown_iff]
    exact not_definedWord_of_decode hw'
  · exact wellFormed_of_ne_unknown (not_exists.mp hu)

/-- Settles O3, by the branch of the decoder and, for well-formedness, by the row. -/
theorem encodeOfDecodeIsTheWord : Obligations.EncodeOfDecodeIsTheWord := fun w =>
  ⟨encode_decode w, wellFormed_decode w⟩

/-- Settles O4, from the round trip and the rows. -/
theorem unknownIsEveryWordOutsideTheMap : Obligations.UnknownIsEveryWordOutsideTheMap := fun _ =>
  ⟨⟨not_definedWord_of_decode, decode_of_not_definedWord⟩, fun _ => eq_of_decode_unknown,
    fun _ => row_decode_of_selects⟩

/-- Settles O1: each word is the encoding of its instruction. -/
theorem decoderReadsTheSpecsWords : Obligations.DecoderReadsTheSpecsWords :=
  ⟨decode_encode (i := .ldImm 3 0x7F) rfl, decode_encode (i := .addReg 0xA 0xB) rfl,
    decode_encode (i := .drw 0 1 5) rfl, decode_encode (i := .skp 2) rfl, decode_encode (i := .ldI 0x22A) rfl,
    decode_encode (i := .cls) rfl, decode_encode (i := .ret) rfl⟩

end Sys2Proof

namespace Sys2Proof.Machine

/-! ### The result of a cycle on a word outside the map (R121, R267) -/

theorem State.cycleResult_of_fetch {s : State} {w : Word} (hrun : s.run = .running) (hw : s.fetch = .ok w) :
    s.cycleResult = resultOf (decode w) (step s) := by
  simp only [State.cycleResult, hrun, hw]

theorem State.cycleResult_of_not_definedWord {s : State} {w : Word} (hrun : s.run = .running) (hw : s.fetch = .ok w)
    (h : definedWord w = false) : s.cycleResult = .unknownInstruction w := by
  rw [State.cycleResult_of_fetch hrun hw, decode_of_not_definedWord h, resultOf]

/-- Settles O43: an `Ok` result is not the one of a word outside the map. -/
theorem unknownWordsAreSurfaced : Obligations.UnknownWordsAreSurfaced := by
  refine fun s w hrun hw => ⟨State.cycleResult_of_not_definedWord hrun hw, fun e he => ?_⟩
  refine Bool.of_not_eq_false fun h => ?_
  rw [State.cycleResult_of_not_definedWord hrun hw h] at he
  cases he

end Sys2Proof.Machine

/-! PROOFS. The cycle: what it does in each run state, that it always answers, and how its result reads off the state
after it. -/

namespace Sys2Proof.Machine

variable {s t : State} {i : Instr}

/-! ### The cycle in each run state (R120, R122, R126, R127) -/

theorem step_of_waiting (hrun : s.run = .waitingForKey) : step s = .next s := by
  simp only [step, State.beginCycle, hrun]

theorem State.cycleResult_of_waiting (hrun : s.run = .waitingForKey) : s.cycleResult = .blocked := by
  simp only [State.cycleResult, hrun]

theorem State.isBlocked_iff : s.isBlocked = true ↔ s.run = .waitingForKey := beq_iff_eq

theorem step_of_halted {f : Fault} (hrun : s.run = .halted) (hf : s.fault = some f) : step s = .fault f := by
  simp only [step, State.beginCycle, hrun, hf]

theorem State.cycleResult_of_halted {f : Fault} (hrun : s.run = .halted) (hf : s.fault = some f) :
    s.cycleResult = .fatal f := by
  simp only [State.cycleResult, hrun, hf]

theorem step_of_fetch_error {f : Fault} (hrun : s.run = .running) (hw : s.fetch = .error f) :
    step s = .next (s.raise f) := by
  simp only [step, State.beginCycle, hrun, hw]

theorem State.cycleResult_of_fetch_error {f : Fault} (hrun : s.run = .running) (hw : s.fetch = .error f) :
    s.cycleResult = .fatal f := by
  simp only [State.cycleResult, hrun, hw]

/-- Settles O7. -/
theorem waitingCycleChangesNothing : Obligations.WaitingCycleChangesNothing := fun _ hrun =>
  ⟨step_of_waiting hrun, State.cycleResult_of_waiting hrun, State.isBlocked_iff.mpr hrun⟩

/-- Settles O6: the fetch fails, and its condition is taken with PC not yet advanced. -/
theorem fetchBeyondMemoryHalts : Obligations.FetchBeyondMemoryHalts := fun s hrun hpc =>
  step_of_fetch_error hrun ((s.fetch_error_iff _).mpr ⟨hpc, rfl⟩)

/-- Settles O9, by the run state; an executed instruction has an effect, hence a next state. -/
theorem cycleAlwaysAnswers : Obligations.CycleAlwaysAnswers := by
  intro s
  rcases step_cases s with ⟨_, hst⟩ | ⟨hrun, f, hf, hst⟩ | ⟨_, _, hst⟩ | ⟨_, f, _, hst⟩ | ⟨_, w, _, hst⟩
  · exact .inl ⟨s, hst⟩
  · exact .inr ⟨f, hrun, hf, hst⟩
  · exact .inl ⟨s, hst⟩
  · exact .inl ⟨s.raise f, hst⟩
  · obtain ⟨t, ht, _⟩ := exists_effect (decode w) (s.setPc (s.pc + 2))
    exact .inl ⟨t, hst.trans ht⟩

/-! ### The host's operations on a halted machine (R264) -/

theorem State.hostOp_loadImage_run_fault (bytes : List Byte) :
    (s.hostOp (.loadImage bytes)).run = s.run ∧ (s.hostOp (.loadImage bytes)).fault = s.fault := by
  simp only [State.hostOp, State.loadImage]
  split
  · next h => split at h <;> cases h; exact ⟨rfl, rfl⟩
  · exact ⟨rfl, rfl⟩

theorem State.hostOp_writeByte_run_fault (addr : Nat) (b : Byte) :
    (s.hostOp (.writeByte addr b)).run = s.run ∧ (s.hostOp (.writeByte addr b)).fault = s.fault := by
  rcases Nat.lt_or_ge 0xFFF addr with h | h
  · rw [State.hostOp_writeByte_of_gt b h]
    exact ⟨rfl, rfl⟩
  · rw [State.hostOp_writeByte_of_le b h]
    exact ⟨rfl, rfl⟩

/-- Only `reset()` and, in a waiting machine, `key_press` write RUN or FAULT. -/
theorem State.hostOp_run_fault {op : HostOp} (hop : op ≠ .reset) (hrun : s.run ≠ .waitingForKey) :
    (s.hostOp op).run = s.run ∧ (s.hostOp op).fault = s.fault := by
  cases op with
  | reset => exact absurd rfl hop
  | loadImage bytes => exact State.hostOp_loadImage_run_fault bytes
  | writeByte addr b => exact State.hostOp_writeByte_run_fault addr b
  | keyPress k =>
    rw [State.hostOp, State.keyPress_of_not_waiting k hrun]
    exact ⟨rfl, rfl⟩
  | readByte | tickTimers | isBlocked | setKeysDown | supplyRand => exact ⟨rfl, rfl⟩

/-- Settles O8. -/
theorem haltedIsPermanentUntilReset : Obligations.HaltedIsPermanentUntilReset := by
  refine fun s f hrun hf => ⟨step_of_halted hrun hf, State.cycleResult_of_halted hrun hf, fun op hop => ?_⟩
  rw [← hf, ← hrun]
  exact State.hostOp_run_fault hop (by simp [hrun])

/-! ### The writers of the timers (R124, R247) -/

theorem Effect.timers_eq (he : Effect s i t) (hi : ¬ ∃ x, i = .ldDt x ∨ i = .ldSt x) :
    t.dt = s.dt ∧ t.st = s.st := by
  cases he with
  | setTimer _ dt st h => exact absurd h hi
  | skip => simp
  | raise | cls | ret | call | jump | writeReg | resultFlag | rnd | draw | index | indexFlag | storeBlock | loadBlock
  | awaitKey | unknown => exact ⟨rfl, rfl⟩

/-- Settles O45: each of the two writers keeps the other timer, every other instruction keeps both. -/
theorem timersWrittenOnlyByTheirInstructions : Obligations.TimersWrittenOnlyByTheirInstructions := by
  intro i s t h
  by_cases hi : ∃ x, i = .ldDt x ∨ i = .ldSt x
  · obtain ⟨x, rfl | rfl⟩ := hi
    · cases h
      exact ⟨fun hdt => absurd rfl (hdt x), fun _ => rfl⟩
    · cases h
      exact ⟨fun _ => rfl, fun hst => absurd rfl (hst x)⟩
  · obtain ⟨hdt, hst⟩ := (exec_effect h).timers_eq hi
    exact ⟨fun _ => hdt, fun _ => hst⟩

/-! ### The result of a cycle (R121) -/

/-- An instruction halts the machine only by raising a condition (R262). -/
theorem Effect.eq_raise_of_halted (he : Effect s i t) (hrun : s.run ≠ .halted) (ht : t.run = .halted) :
    ∃ f, t = s.raise f := by
  cases he with
  | raise _ f => exact ⟨f, rfl⟩
  | awaitKey => cases ht
  | skip => exact absurd ((State.skipIf_run ..).symm.trans ht) hrun
  | cls | ret | call | jump | writeReg | resultFlag | rnd | draw | index | indexFlag | storeBlock | loadBlock | setTimer
  | unknown => exact absurd ht hrun

theorem resultOf_of_halted {f : Fault} (hi : ∀ w, i ≠ .unknown w) (hrun : t.run = .halted) (hf : t.fault = some f) :
    resultOf i (.next t) = .fatal f := by
  simp only [resultOf, hrun, hf]

theorem resultOf_of_not_halted (hi : ∀ w, i ≠ .unknown w) (hrun : t.run ≠ .halted) :
    resultOf i (.next t) = .ok (effectsOf i t) := by
  simp only [resultOf]
  split
  · next h _ => exact absurd h hrun
  · rfl

theorem effectsOf_waitingForKey_iff : (effectsOf i t).waitingForKey = true ↔ t.run = .waitingForKey := beq_iff_eq

theorem effectsOf_screenChanged_iff : (effectsOf i t).screenChanged = true ↔ i = .cls ∨ ∃ x y n, i = .drw x y n := by
  cases i with
  | cls => exact iff_of_true rfl (.inl rfl)
  | drw x y n => exact iff_of_true rfl (.inr ⟨x, y, n, rfl⟩)
  | _ => simp [effectsOf]

theorem effectsOf_soundTrigger_iff : (effectsOf i t).soundTrigger = true ↔ ∃ x, i = .ldSt x := by
  cases i with
  | ldSt x => exact iff_of_true rfl ⟨x, rfl⟩
  | _ => simp [effectsOf]

/-- What a cycle of a running machine returns: the condition it halted on, the word that is surfaced, or the effects of an
instruction after which it has not halted (R121, R262, R267). -/
theorem State.cycleResult_cases (hrun : s.run = .running) :
    (∃ t f, step s = .next t ∧ t.run = .halted ∧ t.fault = some f ∧ (∀ w, s.fetch = .ok w → definedWord w = true) ∧
      s.cycleResult = .fatal f) ∨
    (∃ w, s.fetch = .ok w ∧ definedWord w = false ∧ s.cycleResult = .unknownInstruction w) ∨
    (∃ w t, s.fetch = .ok w ∧ step s = .next t ∧ t.run ≠ .halted ∧ s.cycleResult = .ok (effectsOf (decode w) t)) := by
  cases hw : s.fetch with
  | error f =>
    exact .inl ⟨s.raise f, f, step_of_fetch_error hrun hw, rfl, rfl, nofun, cycleResult_of_fetch_error hrun hw⟩
  | ok w =>
    cases hdef : definedWord w with
    | false => exact .inr (.inl ⟨w, rfl, hdef, cycleResult_of_not_definedWord hrun hw hdef⟩)
    | true =>
      have hi : ∀ w', decode w ≠ .unknown w' := fun w' h => by
        simp [not_definedWord_of_decode h] at hdef
      obtain ⟨t, hexec, he⟩ := exists_effect (decode w) (s.setPc (s.pc + 2))
      have hstep : step s = .next t := (step_of_fetch hrun hw).trans hexec
      have hres : s.cycleResult = resultOf (decode w) (.next t) := hstep ▸ cycleResult_of_fetch hrun hw
      by_cases ht : t.run = .halted
      · obtain ⟨f, rfl⟩ := he.eq_raise_of_halted (by simp [hrun]) ht
        refine .inl ⟨_, f, hstep, ht, rfl, fun w' h => ?_, hres.trans (resultOf_of_halted hi ht rfl)⟩
        cases h
        exact hdef
      · exact .inr (.inr ⟨w, t, rfl, hstep, ht, hres.trans (resultOf_of_not_halted hi ht)⟩)

/-- Settles O10, by the three forms of the result. -/
theorem resultAgreesWithTheStateAfter : Obligations.ResultAgreesWithTheStateAfter := by
  intro s hrun
  rcases State.cycleResult_cases hrun with
    ⟨t, g, hstep, ht, hg, hdef, hres⟩ | ⟨w, hw, hdef, hres⟩ | ⟨w, t, hw, hstep, ht, hres⟩
  · exact ⟨fun f => by simpa [hres, hstep, ht, hg] using fun _ => hdef, fun e he => by simp [hres] at he⟩
  · exact ⟨fun f => by simp [hres, hw, hdef], fun e he => by simp [hres] at he⟩
  · refine ⟨fun f => by simp [hres, hstep, ht], fun e he => ?_⟩
    cases hres.symm.trans he
    exact ⟨t, w, hw, hstep, ht, effectsOf_waitingForKey_iff, effectsOf_screenChanged_iff, effectsOf_soundTrigger_iff⟩

end Sys2Proof.Machine

/-! PROOFS. Control flow: the jumps, the call with its return, and the skips, each with everything it leaves unchanged. -/

namespace Sys2Proof.Machine

/-! ### Call and return (R151, R153) -/

/-- Settles O15: the return pops the entry that the call pushed, which is the only one it has written. -/
theorem callThenReturnComesBack : Obligations.CallThenReturnComesBack := by
  intro nnn s t u hlt hcall hstack hsp
  rw [exec_call_of_lt nnn s hlt] at hcall
  cases hcall
  have hdepth : u.sp.val = s.sp.val + 1 := congrArg Fin.val hsp
  refine ⟨_, exec_ret_of_pos u (by omega), ?_, ?_, fun k hk => ?_⟩
  · simp [hstack, hdepth]
  · exact Fin.ext (by simp [hdepth])
  · simp only [hstack]
    exact Vector.getElem_set_ne _ _ (Nat.ne_of_gt hk)

/-! ### The jumps (R152, R154) -/

theorem exec_jp (nnn : Addr) (s : State) : exec (.jp nnn) s = .next (s.setPc (absTarget nnn)) := rfl

theorem State.setPc_setPc (s : State) (a b : Word) : (s.setPc a).setPc b = s.setPc b := rfl

theorem State.setPc_self (s : State) : s.setPc s.pc = s := rfl

/-- Settles O11: the jump puts PC back to where the fetch found it. -/
theorem parkedMachineStays : Obligations.ParkedMachineStays := by
  rintro s ⟨hrun, w, nnn, hfetch, hdecode, htarget⟩
  rw [step_of_fetch hrun hfetch, hdecode, exec_jp, State.setPc_setPc, htarget, State.setPc_self]

/-- Settles O12. -/
theorem jumpGoesToTheLiteral : Obligations.JumpGoesToTheLiteral :=
  fun nnn s => ⟨decode_encode (i := .jp nnn) rfl, exec_jp nnn s⟩

/-- The sum is at most 0x10FE, so the 16 bits of PC hold it unreduced (R154). -/
theorem toNat_indexedTarget (nnn : Addr) (v0 : Byte) : (indexedTarget nnn v0).toNat = nnn.toNat + v0.toNat := by
  simp only [indexedTarget, BitVec.toNat_add, BitVec.toNat_setWidth]
  omega

/-- Settles O16. -/
theorem indexedJumpAddsV0 : Obligations.IndexedJumpAddsV0 := fun nnn s =>
  ⟨decode_encode (i := .jpV0 nnn) rfl, s.setPc (indexedTarget nnn (s.readReg 0)), rfl, toNat_indexedTarget nnn _, rfl⟩

/-! ### The skips on a comparison (R150) -/

theorem State.skipIf_eq (s : State) (c : Bool) : s.skipIf c = { s with pc := if c then s.pc + 2 else s.pc } := by
  cases c with
  | false => rfl
  | true => rfl

theorem State.skipIf_beq (s : State) (a b : Byte) :
    s.skipIf (a == b) = { s with pc := if a = b then s.pc + 2 else s.pc } := by
  simp only [State.skipIf_eq, beq_iff_eq]

theorem State.skipIf_bne (s : State) (a b : Byte) :
    s.skipIf (a != b) = { s with pc := if a ≠ b then s.pc + 2 else s.pc } := by
  simp only [State.skipIf_eq, bne_iff_ne]

/-- Settles O17. -/
theorem immediateSkipsCompareWithTheLiteral : Obligations.ImmediateSkipsCompareWithTheLiteral := fun x kk s =>
  ⟨decode_encode (i := .seImm x kk) rfl, decode_encode (i := .sneImm x kk) rfl,
    congrArg _ (s.skipIf_beq (s.readReg x) kk), congrArg _ (s.skipIf_bne (s.readReg x) kk)⟩

/-- Settles O18. -/
theorem registerSkipsCompareTheRegisters : Obligations.RegisterSkipsCompareTheRegisters := fun x y s =>
  ⟨decode_encode (i := .seReg x y) rfl, decode_encode (i := .sneReg x y) rfl,
    congrArg _ (s.skipIf_beq (s.readReg x) (s.readReg y)), congrArg _ (s.skipIf_bne (s.readReg x) (s.readReg y))⟩

end Sys2Proof.Machine

/-! PROOFS. Arithmetic and logic: the loads, 7xkk, the bitwise operations, and the operations that write a result and then a
flag to VF, each with every register it leaves unchanged. -/

namespace Sys2Proof.Machine

/-! ### A result without a flag (R173 to R176, R182, R183) -/

theorem State.readReg_writeReg_self (s : State) (x : Nibble) (b : Byte) : (s.writeReg x b).readReg x = b := by
  rw [State.readReg_writeReg, if_pos rfl]

/-- Settles O19: both loads are one register write. -/
theorem loadsCopyIntoTheRegister : Obligations.LoadsCopyIntoTheRegister := fun x y kk s =>
  ⟨decode_encode (i := .ldImm x kk) rfl, decode_encode (i := .ldReg x y) rfl,
    ⟨_, rfl, s.readReg_writeReg_self x kk, s.onlyRegs_writeReg x kk⟩,
    ⟨_, rfl, s.readReg_writeReg_self x (s.readReg y), s.onlyRegs_writeReg x (s.readReg y)⟩⟩

/-- Settles O20: the sum of two bytes is the sum modulo 256. -/
theorem addImmediateWrapsWithoutFlag : Obligations.AddImmediateWrapsWithoutFlag := by
  intro x kk s
  refine ⟨decode_encode (i := .addImm x kk) rfl, s.writeReg x (s.readReg x + kk), rfl, ?_, s.onlyRegs_writeReg x _⟩
  rw [State.readReg_writeReg_self, BitVec.toNat_add]

/-- Settles O21: each bit of the result is the operation on the bits of the operands. -/
theorem logicIsBitwiseWithoutFlag : Obligations.LogicIsBitwiseWithoutFlag := by
  intro x y s
  refine ⟨decode_encode (i := .orReg x y) rfl, decode_encode (i := .andReg x y) rfl, decode_encode (i := .xorReg x y) rfl,
    ⟨s.writeReg x (s.readReg x ||| s.readReg y), rfl, s.onlyRegs_writeReg x _, fun k => ?_⟩,
    ⟨s.writeReg x (s.readReg x &&& s.readReg y), rfl, s.onlyRegs_writeReg x _, fun k => ?_⟩,
    ⟨s.writeReg x (s.readReg x ^^^ s.readReg y), rfl, s.onlyRegs_writeReg x _, fun k => ?_⟩⟩
  · rw [State.readReg_writeReg_self, BitVec.getLsbD_or]
  · rw [State.readReg_writeReg_self, BitVec.getLsbD_and]
  · rw [State.readReg_writeReg_self, BitVec.getLsbD_xor]

/-! ### A result and then its flag (R172) -/

section
variable (s : State) (x : Nibble) (result : Byte) (flag : Bool)

theorem State.onlyRegs_writeResultFlag : s.OnlyRegs (s.writeResultFlag x result flag) [x, 0xF] := by
  refine ⟨rfl, fun r hr => ?_⟩
  obtain ⟨hx, hF⟩ : r ≠ x ∧ r ≠ 0xF := by simpa using hr
  rw [State.readReg_writeResultFlag, if_neg hF, if_neg hx]

theorem State.readReg_regF_writeResultFlag : (s.writeResultFlag x result flag).readReg 0xF = flagByte flag := by
  rw [State.readReg_writeResultFlag, if_pos rfl]

variable {x} in
theorem State.readReg_writeResultFlag_self (hx : x ≠ 0xF) : (s.writeResultFlag x result flag).readReg x = result := by
  rw [State.readReg_writeResultFlag, if_neg hx, if_pos rfl]

end

/-! ### The flags' values (R170) -/

theorem flagByte_decide (p : Prop) [Decidable p] : flagByte (decide p) = if p then 1 else 0 := by
  simp only [flagByte, decide_eq_true_eq]

theorem flagByte_carryFlag (a b : Byte) : flagByte (carryFlag a b) = if a.toNat + b.toNat > 255 then 1 else 0 :=
  flagByte_decide _

theorem flagByte_noBorrowFlag (a b : Byte) : flagByte (noBorrowFlag a b) = if a.toNat ≥ b.toNat then 1 else 0 :=
  flagByte_decide _

theorem toNat_flagByte (c : Bool) : (flagByte c).toNat = c.toNat := by
  cases c with
  | false => rfl
  | true => rfl

theorem toNat_flagByte_getLsbD (a : Byte) (k : Nat) : (flagByte (a.getLsbD k)).toNat = a.toNat / 2 ^ k % 2 :=
  (toNat_flagByte _).trans (Nat.toNat_testBit _ k)

theorem toNat_flagByte_lowBit (a : Byte) : (flagByte (lowBit a)).toNat = a.toNat % 2 := by
  rw [lowBit, toNat_flagByte_getLsbD, Nat.pow_zero, Nat.div_one]

/-- The quotient by 128 of a byte is its bit 7 alone. -/
theorem toNat_flagByte_highBit (a : Byte) : (flagByte (highBit a)).toNat = a.toNat / 128 := by
  have ha := a.isLt
  rw [highBit, toNat_flagByte_getLsbD]
  omega

/-! ### Addition, subtraction and the shifts (R177 to R181) -/

theorem toNat_sub_byte (a b : Byte) : (a - b).toNat = (256 + a.toNat - b.toNat) % 256 := by
  rw [BitVec.toNat_sub]
  omega

/-- Settles O22: the sum of two bytes wraps, and the carry tells whether it has. -/
theorem addSetsTheCarry : Obligations.AddSetsTheCarry := by
  intro x y s
  refine ⟨decode_encode (i := .addReg x y) rfl, _, rfl, fun hx => ?_, ?_, s.onlyRegs_writeResultFlag x _ _⟩
  · rw [State.readReg_writeResultFlag_self _ _ _ hx, BitVec.toNat_add]
  · rw [State.readReg_regF_writeResultFlag, flagByte_carryFlag]

/-- A difference written to Vx, then its no-borrow flag: the part that 8xy5 and 8xy7 share (R178, R180). -/
theorem exec_of_writes_difference {i : Instr} {s : State} {x : Nibble} {a b : Byte}
    (h : exec i s = .next (s.writeResultFlag x (a - b) (noBorrowFlag a b))) :
    ∃ t, exec i s = .next t ∧ (x ≠ 0xF → (t.readReg x).toNat = (256 + a.toNat - b.toNat) % 256) ∧
      t.readReg 0xF = (if a.toNat ≥ b.toNat then 1 else 0) ∧ s.OnlyRegs t [x, 0xF] := by
  refine ⟨_, h, fun hx => ?_, ?_, s.onlyRegs_writeResultFlag x _ _⟩
  · rw [State.readReg_writeResultFlag_self _ _ _ hx, toNat_sub_byte]
  · rw [State.readReg_regF_writeResultFlag, flagByte_noBorrowFlag]

/-- Settles O23: 8xy7 is 8xy5 with the operands exchanged. -/
theorem subtractsSetNoBorrow : Obligations.SubtractsSetNoBorrow := fun x y s =>
  ⟨decode_encode (i := .subReg x y) rfl, decode_encode (i := .subnReg x y) rfl,
    exec_of_writes_difference (a := s.readReg x) (b := s.readReg y) rfl,
    exec_of_writes_difference (a := s.readReg y) (b := s.readReg x) rfl⟩

/-- Settles O24: the bit shifted out is bit 0, respectively bit 7, of Vx before the shift. -/
theorem shiftsMoveOneBitIntoVF : Obligations.ShiftsMoveOneBitIntoVF := by
  intro x y s
  refine ⟨decode_encode (i := .shr x y) rfl, decode_encode (i := .shl x y) rfl,
    ⟨_, rfl, fun hx => ?_, ?_, s.onlyRegs_writeResultFlag x _ _⟩,
    ⟨_, rfl, fun hx => ?_, ?_, s.onlyRegs_writeResultFlag x _ _⟩⟩
  · rw [State.readReg_writeResultFlag_self _ _ _ hx, BitVec.toNat_ushiftRight, Nat.shiftRight_eq_div_pow, Nat.pow_one]
  · rw [State.readReg_regF_writeResultFlag, toNat_flagByte_lowBit]
  · rw [State.readReg_writeResultFlag_self _ _ _ hx, BitVec.toNat_shiftLeft, Nat.shiftLeft_eq]
  · rw [State.readReg_regF_writeResultFlag, toNat_flagByte_highBit]

end Sys2Proof.Machine

/-! PROOFS. The index register, and the blocks that Fx33, Fx55 and Fx65 move at I, each with everything it leaves
unchanged. -/

namespace Sys2Proof.Machine

variable {s : State}

/-! ### The decimal digits of a byte (R204) -/

section
variable (a : Byte)

theorem toNat_bcdDigits_hundreds : ((bcdDigits a).getD 0 0).toNat = a.toNat / 100 := BitVec.toNat_udiv

theorem toNat_bcdDigits_tens : ((bcdDigits a).getD 1 0).toNat = a.toNat / 10 % 10 :=
  BitVec.toNat_umod.trans (congrArg (· % 10) BitVec.toNat_udiv)

theorem toNat_bcdDigits_ones : ((bcdDigits a).getD 2 0).toNat = a.toNat % 10 := BitVec.toNat_umod

end

/-! ### The blocks at I (R204 to R207) -/

theorem exec_bcd_of_le {x : Nibble} (h : s.i.toNat + 2 ≤ 0xFFF) :
    exec (.bcd x) s = .next { s with mem := s.mem.writeBlock s.i.toNat (bcdDigits (s.readReg x)) } :=
  congrArg Host.Outcome.next (State.whenInRange_of_le (Nat.succ_le_succ h))

/-- Settles O29: byte k of the block is digit k. -/
theorem bcdStoresTheDecimalDigits : Obligations.BcdStoresTheDecimalDigits := by
  intro x s hm h
  have hin : s.i.toNat + (bcdDigits (s.readReg x)).length ≤ 4096 := Nat.succ_le_succ h
  have hread (k : Nat) (hk : k < 3) :=
    Memory.read_writeBlock_inside (bcdDigits (s.readReg x)) s.mem s.i.toNat k hin hm hk
  refine ⟨decode_encode (i := .bcd x) rfl, _, exec_bcd_of_le h, ?_, ?_, ?_, fun a ha => ?_, ?_, rfl⟩
  · exact (congrArg BitVec.toNat (hread 0 (by decide))).trans (toNat_bcdDigits_hundreds _)
  · exact (congrArg BitVec.toNat (hread 1 (by decide))).trans (toNat_bcdDigits_tens _)
  · exact (congrArg BitVec.toNat (hread 2 (by decide))).trans (toNat_bcdDigits_ones _)
  · exact Memory.read_writeBlock_outside _ _ _ a ha
  · exact Memory.wf_writeBlock _ _ _ hin hm

/-- Settles O30: byte k of the block is Vk. -/
theorem storeWritesTheRegisterBlock : Obligations.StoreWritesTheRegisterBlock := by
  intro x s hm h
  have hlen := s.length_readRegs x
  have hin : s.i.toNat + (s.readRegs x).length ≤ 4096 := by omega
  refine ⟨decode_encode (i := .store x) rfl, _, exec_store_of_le h, fun k hk => read_writeBlock_readRegs hm h hk,
    fun a ha => ?_, ?_, rfl⟩
  · exact Memory.read_writeBlock_outside _ _ _ a (by omega)
  · exact Memory.wf_writeBlock _ _ _ hin hm

/-- A block load leaves the registers above Vx alone (R206). -/
theorem readReg_writeRegs_readBlock_of_gt {x k : Nibble} (m : Memory) (base : Nat) (hk : x.toNat < k.toNat) :
    (s.writeRegs (m.readBlock base (x.toNat + 1))).readReg k = s.readReg k := by
  have hlen := m.length_readBlock (x.toNat + 1) base
  rw [State.readReg_writeRegs _ _ _ (by omega), if_neg (by omega)]

/-- Settles O31: Vk is byte k of the block up to Vx, and itself above. -/
theorem loadReadsTheRegisterBlock : Obligations.LoadReadsTheRegisterBlock := fun x s h =>
  ⟨decode_encode (i := .load x) rfl, _, exec_load_of_le h, fun _ hk => readReg_writeRegs_readBlock s.mem _ hk,
    fun _ hk => readReg_writeRegs_readBlock_of_gt s.mem _ hk, fun _ => rfl, rfl⟩

/-! ### The index register (R201 to R203) -/

theorem exec_ldI (nnn : Addr) (s : State) : exec (.ldI nnn) s = .next (s.setI nnn) := rfl

/-- Settles O26. -/
theorem loadIndexTakesTheLiteral : Obligations.LoadIndexTakesTheLiteral :=
  fun nnn s => ⟨decode_encode (i := .ldI nnn) rfl, exec_ldI nnn s⟩

theorem toNat_indexWrap_indexSum (i : Addr) (a : Byte) :
    (indexWrap (indexSum i a)).toNat = (i.toNat + a.toNat) % 4096 :=
  BitVec.toNat_ofNat _ _

theorem flagByte_indexOverflow (sum : Nat) : flagByte (indexOverflow sum) = if sum > 0xFFF then 1 else 0 :=
  flagByte_decide _

theorem State.addIndex_false (a : Byte) : s.addIndex false a = s.setI (indexWrap (indexSum s.i a)) := rfl

theorem State.addIndex_true (a : Byte) :
    s.addIndex true a = (s.setI (indexWrap (indexSum s.i a))).setFlag (indexOverflow (indexSum s.i a)) := rfl

theorem exec_addI {x : Nibble} {vf : Bool} (hvf : Config.fx1eVfOnOverflow = vf) :
    exec (.addI x) s = .next (s.addIndex vf (s.readReg x)) := by
  subst hvf
  rfl

/-- Settles O27, by the value of the open parameter: I is the same under both, and the flag comes last where it is
written. -/
theorem addIndexWraps : Obligations.AddIndexWraps := by
  intro x s
  refine ⟨decode_encode (i := .addI x) rfl, ?_⟩
  have hi := toNat_indexWrap_indexSum s.i (s.readReg x)
  cases hvf : Config.fx1eVfOnOverflow with
  | false => exact ⟨_, exec_addI hvf, hi, fun _ => rfl, nofun⟩
  | true =>
    refine ⟨_, exec_addI hvf, hi, nofun, fun _ => ⟨?_, fun r hr => ?_, rfl⟩⟩
    · rw [State.addIndex_true, State.readReg_setFlag, if_pos rfl, flagByte_indexOverflow, indexSum]
    · rw [State.addIndex_true, State.readReg_setFlag, if_neg hr, State.readReg_setI]

theorem toNat_hexDigit (a : Byte) : (hexDigit a).toNat = a.toNat % 16 := BitVec.toNat_setWidth _ _

/-- The last glyph of the highest font starts at 0x1FB, so the 12 bits of I hold the address (R203). -/
theorem toNat_glyphAddr (base : Fin 0x1B1) (d : Nibble) : (glyphAddr base d).toNat = base.val + 5 * d.toNat := by
  have h : base.val + 5 * d.toNat < 4096 := by omega
  exact (BitVec.toNat_ofNat _ 12).trans (Nat.mod_eq_of_lt h)

/-- Settles O28: the address is at most 0x1B0 + 5 · 15, with four more bytes of its glyph. -/
theorem fontAddressIsInTheReservedRegion : Obligations.FontAddressIsInTheReservedRegion := by
  intro x s
  have haddr := toNat_glyphAddr Config.fontBase (hexDigit (s.readReg x))
  have hbase := Config.fontBase.isLt
  rw [toNat_hexDigit] at haddr
  refine ⟨decode_encode (i := .ldFont x) rfl, s.setI (glyphAddr Config.fontBase (hexDigit (s.readReg x))), rfl, haddr,
    ?_, rfl⟩
  rw [State.setI_i, haddr]
  omega

end Sys2Proof.Machine

/-! PROOFS. The display: what 00E0 and Dxyn do to each pixel and to VF, and that nothing else but `reset()` writes a pixel. -/

namespace Sys2Proof.Machine

variable {s t : State} {x y n : Nibble}

/-! ### 00E0 (R220) -/

theorem exec_cls (s : State) : exec .cls s = .next { s with disp := Display.clear } := rfl

/-- Settles O34. -/
theorem clearScreenClearsEveryPixel : Obligations.ClearScreenClearsEveryPixel :=
  ⟨decode_encode (i := .cls) rfl, fun s => ⟨_, exec_cls s, Display.pixel_clear, rfl, exec_cls _⟩⟩

/-! ### The sprite of Dxyn (R222 to R226) -/

theorem exec_drw_of_le (h : s.i.toNat + n.toNat ≤ 0x1000) : exec (.drw x y n) s = .next (s.draw x y n) :=
  congrArg Host.Outcome.next (State.whenInRange_of_le h)

theorem rowBit_iff {row : Byte} {x0 : Nat} {px : Fin 64} :
    rowBit row x0 px = true ↔ ∃ c, c < 8 ∧ px.val = x0 + c ∧ row.getLsbD (7 - c) = true := by
  simp only [rowBit, Bool.and_eq_true, decide_eq_true_eq]
  constructor
  · rintro ⟨hcol, hbit⟩
    exact ⟨px.val - x0, by omega, by omega, hbit⟩
  · rintro ⟨c, hc, hpx, hbit⟩
    refine ⟨by omega, ?_⟩
    rwa [hpx, Nat.add_sub_cancel_left]

/-- The bits that the blitter puts on a pixel are those of the statements' sprite. -/
theorem State.spriteBit_iff_spriteCovers (s : State) (x y n : Nibble) (px : Fin 64) (py : Fin 32) :
    spriteBit (s.mem.readBlock s.i.toNat n.toNat) ((s.readReg x).toNat % 64) ((s.readReg y).toNat % 32) px py = true ↔
      s.SpriteCovers x y n px py := by
  simp only [spriteBit, Memory.length_readBlock, List.any_eq_true, List.mem_range, Bool.and_eq_true, decide_eq_true_eq,
    rowBit_iff]
  constructor
  · rintro ⟨r, hr, hpy, c, hc, hpx, hbit⟩
    rw [s.mem.getD_readBlock _ _ _ hr] at hbit
    exact ⟨r, c, hr, hc, hpx, hpy, hbit⟩
  · rintro ⟨r, c, hr, hc, hpx, hpy, hbit⟩
    rw [← s.mem.getD_readBlock _ _ _ hr] at hbit
    exact ⟨r, hr, hpy, c, hc, hpx, hbit⟩

/-- A sprite has at most 15 rows, so no two of them fall on one display row (R221). -/
theorem Memory.length_readBlock_nibble_le (m : Memory) (base : Nat) (n : Nibble) :
    (m.readBlock base n.toNat).length ≤ 32 := by
  have hn := n.isLt
  rw [m.length_readBlock]
  omega

theorem xor_eq_true_iff {b c : Bool} : (b ^^ c) = true ↔ ¬ (b = true ↔ c = true) := by
  cases b <;> cases c <;> decide

theorem State.pixel_draw (s : State) (x y n : Nibble) (px : Fin 64) (py : Fin 32) :
    (s.draw x y n).pixel px py = true ↔ ¬ (s.pixel px py = true ↔ s.SpriteCovers x y n px py) := by
  have hpix : (s.draw x y n).pixel px py = (s.pixel px py ^^ _) :=
    pixel_blit s.disp _ (s.readReg x) (s.readReg y) px py (s.mem.length_readBlock_nibble_le s.i.toNat n)
  rw [hpix, ← s.spriteBit_iff_spriteCovers, xor_eq_true_iff]

theorem State.readReg_draw_of_ne (s : State) {r : Nibble} (hr : r ≠ 0xF) : (s.draw x y n).readReg r = s.readReg r :=
  (State.readReg_setFlag _ _ _).trans (if_neg hr)

/-- Settles O35, pixel by pixel. -/
theorem drawInvertsTheCoveredPixels : Obligations.DrawInvertsTheCoveredPixels := fun x y n s h =>
  ⟨_, exec_drw_of_le h, s.pixel_draw x y n, fun _ hr => s.readReg_draw_of_ne hr, fun _ => rfl, rfl⟩

/-! ### The collision flag (R225, R227) -/

/-- A sprite bit 1 of Dxyn falls on a pixel of the value b. -/
def State.SpriteMeets (s : State) (x y n : Nibble) (b : Bool) : Prop :=
  ∃ px py, s.SpriteCovers x y n px py ∧ s.pixel px py = b

theorem flagByte_eq_one_iff {c : Bool} : flagByte c = 1 ↔ c = true := by
  cases c <;> decide

theorem flagByte_eq_zero_iff {c : Bool} : flagByte c = 0 ↔ ¬ c = true := by
  cases c <;> decide

theorem State.readReg_setFlag_regF (s : State) (c : Bool) : (s.setFlag c).readReg 0xF = flagByte c :=
  (s.readReg_setFlag _ c).trans (if_pos rfl)

theorem State.readReg_draw_regF (s : State) (x y n : Nibble) :
    (s.draw x y n).readReg 0xF =
      flagByte (blit s.disp (s.mem.readBlock s.i.toNat n.toNat) (s.readReg x) (s.readReg y)).collision :=
  State.readReg_setFlag_regF _ _

theorem State.collision_blit_iff_spriteMeets (s : State) (x y n : Nibble) :
    (blit s.disp (s.mem.readBlock s.i.toNat n.toNat) (s.readReg x) (s.readReg y)).collision = true ↔
      s.SpriteMeets x y n true := by
  rw [collision_blit _ _ _ _ (s.mem.length_readBlock_nibble_le s.i.toNat n)]
  simp only [s.spriteBit_iff_spriteCovers, State.SpriteMeets, State.pixel]

theorem State.readReg_draw_regF_eq_one_iff : (s.draw x y n).readReg 0xF = 1 ↔ s.SpriteMeets x y n true := by
  rw [s.readReg_draw_regF, flagByte_eq_one_iff, s.collision_blit_iff_spriteMeets]

theorem State.readReg_draw_regF_eq_zero_iff : (s.draw x y n).readReg 0xF = 0 ↔ ¬ s.SpriteMeets x y n true := by
  rw [s.readReg_draw_regF, flagByte_eq_zero_iff, s.collision_blit_iff_spriteMeets]

/-- A sprite of no rows leaves the display alone and reports no collision (R227). -/
theorem State.draw_zero (s : State) (x y : Nibble) : s.draw x y 0 = s.setFlag false := rfl

/-- Settles O36: VF is the collision of the blit, which for n = 0 is none. -/
theorem drawReportsTheCollision : Obligations.DrawReportsTheCollision := by
  intro x y n s t h ht
  cases (exec_drw_of_le h).symm.trans ht
  refine ⟨State.readReg_draw_regF_eq_one_iff.mpr, State.readReg_draw_regF_eq_zero_iff.mpr, ?_⟩
  rintro rfl
  rw [s.draw_zero]
  exact ⟨s.readReg_setFlag_regF false, rfl⟩

/-! ### Drawing twice (R222) -/

/-- The first draw leaves the operands of the second one alone, unless VF is one of them. -/
theorem State.spriteCovers_draw (hx : x ≠ 0xF) (hy : y ≠ 0xF) (px : Fin 64) (py : Fin 32) :
    (s.draw x y n).SpriteCovers x y n px py ↔ s.SpriteCovers x y n px py := by
  have hmem : (s.draw x y n).mem = s.mem := rfl
  have hi : (s.draw x y n).i = s.i := rfl
  simp only [State.SpriteCovers, s.readReg_draw_of_ne hx, s.readReg_draw_of_ne hy, hmem, hi]

/-- A pixel inverted twice is as it was. -/
theorem State.disp_draw_draw (hx : x ≠ 0xF) (hy : y ≠ 0xF) : ((s.draw x y n).draw x y n).disp = s.disp := by
  refine Display.ext_pixel fun px py => Bool.eq_iff_iff.mpr ?_
  have hpix := (s.draw x y n).pixel_draw x y n px py
  rw [s.pixel_draw, State.spriteCovers_draw hx hy] at hpix
  refine hpix.trans ?_
  by_cases hcovers : s.SpriteCovers x y n px py
  · simp only [hcovers, iff_true, Classical.not_not, State.pixel]
  · simp only [hcovers, iff_false, Classical.not_not, State.pixel]

/-- The first draw sets the covered pixels that were clear, and no other covered one. -/
theorem State.spriteMeets_draw_iff (hx : x ≠ 0xF) (hy : y ≠ 0xF) :
    (s.draw x y n).SpriteMeets x y n true ↔ s.SpriteMeets x y n false := by
  refine exists_congr fun px => exists_congr fun py => ?_
  rw [State.spriteCovers_draw hx hy, s.pixel_draw]
  refine and_congr_right fun hcovers => ?_
  rw [iff_true_right hcovers, Bool.not_eq_true]

/-- Settles O37. -/
theorem drawingTwiceRestoresTheDisplay : Obligations.DrawingTwiceRestoresTheDisplay := by
  intro x y n s t hx hy h ht
  cases (exec_drw_of_le h).symm.trans ht
  exact ⟨_, exec_drw_of_le h, State.disp_draw_draw hx hy,
    State.readReg_draw_regF_eq_one_iff.trans (State.spriteMeets_draw_iff hx hy)⟩

/-! ### The writers of the display (R229) -/

theorem Effect.disp_eq {i : Instr} (he : Effect s i t) (hcls : i ≠ .cls) (hdrw : ∀ x y n, i ≠ .drw x y n) :
    t.disp = s.disp := by
  cases he with
  | cls => exact absurd rfl hcls
  | draw x y n => exact absurd rfl (hdrw x y n)
  | skip => exact State.skipIf_disp _ _
  | raise | ret | call | jump | writeReg | resultFlag | rnd | index | indexFlag | storeBlock | loadBlock | awaitKey
  | setTimer | unknown => rfl

theorem State.keyPress_disp (s : State) (k : Nibble) : (s.keyPress k).disp = s.disp := by
  by_cases hrun : s.run = .waitingForKey
  · rw [State.keyPress_of_waiting k hrun]
    rfl
  · rw [State.keyPress_of_not_waiting k hrun]

theorem State.hostOp_writeByte_disp (s : State) (addr : Nat) (b : Byte) :
    (s.hostOp (.writeByte addr b)).disp = s.disp := by
  rcases Nat.lt_or_ge 0xFFF addr with h | h
  · rw [State.hostOp_writeByte_of_gt b h]
  · rw [State.hostOp_writeByte_of_le b h]

theorem State.hostOp_loadImage_disp (s : State) (bytes : List Byte) :
    (s.hostOp (.loadImage bytes)).disp = s.disp := by
  simp only [State.hostOp, State.loadImage]
  split
  · next h => split at h <;> cases h; rfl
  · rfl

theorem State.hostOp_disp {op : HostOp} (hop : op ≠ .reset) : (s.hostOp op).disp = s.disp := by
  cases op with
  | reset => exact absurd rfl hop
  | loadImage bytes => exact s.hostOp_loadImage_disp bytes
  | writeByte addr b => exact s.hostOp_writeByte_disp addr b
  | keyPress k => exact s.keyPress_disp k
  | readByte | tickTimers | isBlocked | setKeysDown | supplyRand => rfl

/-- Settles O44, from the frame of each effect and of each host operation. -/
theorem displayWrittenOnlyByClearAndDraw : Obligations.DisplayWrittenOnlyByClearAndDraw :=
  ⟨fun _ _ _ h => (exec_effect h).disp_eq, fun _ _ => State.hostOp_disp, State.pixel_hostReset⟩

end Sys2Proof.Machine

/-! PROOFS. The keys: Ex9E and ExA1 skip on the key that Vx names, and leave everything but PC unchanged. -/

namespace Sys2Proof.Machine

variable {s : State}

theorem State.keyIsDown_of_toNat_eq {a : Byte} {k : Fin 16} (h : a.toNat = k.val) : s.keyIsDown a = s.keysDown[k.val] := by
  rw [State.keyIsDown, h, decide_eq_true (Nat.le_of_lt_succ k.isLt), Bool.true_and, BitVec.getLsbD_eq_getElem]

/-- A value above 15 is no key's (D9). -/
theorem State.keyIsDown_of_gt {a : Byte} (h : 15 < a.toNat) : s.keyIsDown a = false := by
  rw [State.keyIsDown, decide_eq_false (Nat.not_le_of_gt h), Bool.false_and]

theorem State.skipIf_not (s : State) (c : Bool) : s.skipIf (!c) = { s with pc := if c then s.pc else s.pc + 2 } := by
  cases c with
  | false => rfl
  | true => rfl

/-- Ex9E skips on the sampled key b (R241). -/
theorem exec_skp_of_keyIsDown {x : Nibble} {b : Bool} (h : s.keyIsDown (s.readReg x) = b) :
    exec (.skp x) s = .next { s with pc := if b = true then s.pc + 2 else s.pc } := by
  subst h
  exact congrArg Host.Outcome.next (s.skipIf_eq _)

/-- ExA1 skips exactly when Ex9E does not (R242). -/
theorem exec_sknp_of_keyIsDown {x : Nibble} {b : Bool} (h : s.keyIsDown (s.readReg x) = b) :
    exec (.sknp x) s = .next { s with pc := if b = true then s.pc else s.pc + 2 } := by
  subst h
  exact congrArg Host.Outcome.next (s.skipIf_not _)

/-- Settles O38, by the sampled key: a value above 15 names none. -/
theorem keySkipsSampleTheKey : Obligations.KeySkipsSampleTheKey := by
  refine fun x s => ⟨decode_encode (i := .skp x) rfl, decode_encode (i := .sknp x) rfl, fun k hk => ?_, fun hgt => ?_⟩
  · have hkey := s.keyIsDown_of_toNat_eq hk
    exact ⟨exec_skp_of_keyIsDown hkey, exec_sknp_of_keyIsDown hkey⟩
  · have hkey := s.keyIsDown_of_gt hgt
    exact ⟨exec_skp_of_keyIsDown hkey, exec_sknp_of_keyIsDown hkey⟩

end Sys2Proof.Machine

/-! PROOFS. The conditions: which check fails where an instruction halts the machine, what an `Unknown` word leaves behind
under each policy, and the countdown of the timers. -/

namespace Sys2Proof.Machine

variable {s t : State} {i : Instr}

/-! ### The raised conditions (R260, R262, R263) -/

/-- An instruction that halts the machine has failed its own check: the effects other than `raise` leave RUN as it is, but
for Fx0A, which waits. -/
theorem Effect.raises_of_halted (he : Effect s i t) (hrun : s.run ≠ .halted) (ht : t.run = .halted) : s.Raises i := by
  cases he with
  | raise _ _ hi => exact hi
  | awaitKey => cases ht
  | skip => exact absurd ((State.skipIf_run ..).symm.trans ht) hrun
  | cls | ret | call | jump | writeReg | resultFlag | rnd | draw | index | indexFlag | storeBlock | loadBlock | setTimer
  | unknown => exact absurd ht hrun

/-- Settles O49: what halts the machine is a raise, and the check that failed is the one of the instruction. -/
theorem onlyTheTaxonomyHalts : Obligations.OnlyTheTaxonomyHalts := by
  intro i s t h hrun ht
  obtain ⟨f, rfl⟩ := (exec_effect h).eq_raise_of_halted hrun ht
  have hi : s.Raises i := (exec_effect h).raises_of_halted hrun ht
  refine ⟨rfl, ?_⟩
  cases i with
  | ret => exact .inl ⟨rfl, hi⟩
  | call nnn => exact .inr (.inl ⟨⟨nnn, rfl⟩, hi⟩)
  | drw x y n => exact .inr (.inr (.inl ⟨x, y, n, rfl, hi⟩))
  | bcd x => exact .inr (.inr (.inr (.inl ⟨x, rfl, Nat.lt_of_succ_lt_succ hi⟩)))
  | store x => exact .inr (.inr (.inr (.inr (.inl ⟨x, .inl rfl, Nat.lt_of_succ_lt_succ hi⟩))))
  | load x => exact .inr (.inr (.inr (.inr (.inl ⟨x, .inr rfl, Nat.lt_of_succ_lt_succ hi⟩))))
  | unknown w => exact .inr (.inr (.inr (.inr (.inr ⟨⟨w, rfl⟩, hi⟩))))
  | _ => exact hi.elim

/-! ### Unknown words (R267, R268) -/

@[simp] theorem State.surfaceUnknown_surfaceAndContinue (s : State) (w : Word) :
    s.surfaceUnknown .surfaceAndContinue w = s := rfl

@[simp] theorem State.surfaceUnknown_halt (s : State) (w : Word) :
    s.surfaceUnknown .halt w = s.raise (.unknownInstruction w) := rfl

/-- Settles O42, for each value of the open policy. -/
theorem unknownChangesNoState : Obligations.UnknownChangesNoState := by
  refine fun w s => ⟨s.surfaceUnknown Config.unknownPolicy w, rfl, fun hpolicy => ?_, fun hpolicy => ?_⟩
  · rw [hpolicy, State.surfaceUnknown_surfaceAndContinue]
  · rw [hpolicy, State.surfaceUnknown_halt, State.raise]

/-! ### The countdown of the timers (R275) -/

/-- The floor at 0 is the one of subtraction on the natural numbers. -/
theorem toNat_countDown (b : Byte) : (countDown b).toNat = b.toNat - 1 := by
  unfold countDown
  split
  · next h => rw [h]; rfl
  · next h => exact BitVec.toNat_sub_of_le (BitVec.toNat_pos_of_ne_zero h)

/-- Settles O41, by the countdown of each timer. -/
theorem ticksCountDownToZero : Obligations.TicksCountDownToZero :=
  fun s => ⟨toNat_countDown s.dt, toNat_countDown s.st, rfl⟩

end Sys2Proof.Machine

/-! PROOFS. The host's load of an image: what it copies where it fits above 0x200, and its refusal where it does not. -/

namespace Sys2Proof.Machine

variable {s : State} {bytes : List Byte}

/-! ### The image (R303) -/

/-- An image that fits ends at 0xFFF at the latest: 0x200 + 3584 = 0x1000. -/
theorem State.loadImage_of_le (h : bytes.length ≤ 3584) :
    s.loadImage bytes = .ok { s with mem := s.mem.writeBlock 0x200 bytes } :=
  if_pos (Nat.add_le_add_left h 0x200)

theorem State.loadImage_of_gt (h : 3584 < bytes.length) : s.loadImage bytes = .error (.imageTooLarge bytes.length) :=
  if_neg (Nat.not_le.2 (Nat.add_lt_add_left h 0x200))

/-- Settles O58, on both sides of the bound: below it, the image is one block write. -/
theorem loadImageCopiesTheImage : Obligations.LoadImageCopiesTheImage := by
  refine fun bytes s hm => ⟨fun hlen => ?_, State.loadImage_of_gt⟩
  have hfits : 0x200 + bytes.length ≤ Config.memSize := Nat.add_le_add_left hlen 0x200
  refine ⟨_, State.loadImage_of_le hlen, fun k hk => ?_, fun a ha => ?_, ?_, rfl⟩
  · rw [Memory.read_writeBlock_inside bytes s.mem 0x200 k hfits hm hk, List.getD_eq_getElem?_getD,
      List.getElem?_eq_getElem hk, Option.getD_some]
  · exact Memory.read_writeBlock_outside bytes s.mem 0x200 a ha
  · exact Memory.wf_writeBlock bytes s.mem 0x200 hfits hm

end Sys2Proof.Machine
